-- ==== Sys2Proof/Word.lean ====
section
/-! DEFINITION. Words, byte values and the small fixed name sets of the byte-channel frame engine
(spec/00_scope.md R15, R16; spec/30_encoding.md R70 to R72). -/

namespace Sys2Proof

/-- A byte, the width of every data path (R53). -/
abbrev Byte := BitVec 8

/-- The width of the counters, the gains and the diagnostic data (R12, R30, R32). -/
abbrev Word32 := BitVec 32

/-- A token of a payload: a byte string (R16, R151). -/
abbrev Token := List Byte

/-- `[`, the start delimiter (R70, R71). -/
def LB : Byte := 0x5B#8
/-- `]`, the end delimiter (R70, R71). -/
def RB : Byte := 0x5D#8
/-- `,`, the token separator (R70, R71). -/
def COMMA : Byte := 0x2C#8
/-- The terminator (R70, R71). -/
def NUL : Byte := 0x00#8

/-- `FA_STATE` (R26). -/
inductive FaState where
  | wait
  | collect
deriving DecidableEq, Repr

/-- The keywords of the dispatcher's look-up table (R154). -/
inductive Keyword where
  | pid
  | led
  | status
deriving DecidableEq, Repr

/-- The agents that take steps (R5, R204). -/
inductive Agent where
  | producer
  | consumer
  | sink
  | host
deriving DecidableEq, Repr

/-- A step an agent can be chosen to take. Each operation has one agent, so an operation of
another agent does not exist (R204). -/
inductive AgentStep where
  /-- PRODUCER: CH_PUSH of a byte. -/
  | producerPush (b : Byte)
  /-- CONSUMER: CH_CONSUME. -/
  | consumerConsume
  /-- CONSUMER: CH_RX_TIMEOUT. -/
  | consumerTimeout
  /-- SINK: DIAG_DRAIN. -/
  | sinkDrain
  /-- HOST: HOST_READ of a register number. -/
  | hostRead (r : Nat)
  /-- HOST: RESET. -/
  | hostReset
deriving DecidableEq, Repr

/-- What selects an operation, at the three levels of decoding: the agent that steps (R5, R204), the
9-bit assembler word (R72), the payload of a frame (R75, R76). -/
inductive Code where
  | agentStep (a : AgentStep)
  | faWord (w : BitVec 9)
  | payload (p : List Byte)
deriving DecidableEq, Repr

end Sys2Proof
end

