-- ==== Sys2Proof/Config.lean ====
section
/-! DEFINITION. The parameters of spec/00_scope.md R6 to R14, fixed before the first step (R233), and
the free values of the model. -/

namespace Sys2Proof

/-- What a `[` received while collecting is (R10). -/
inductive LBracketPolicy where
  | data
  | restart
deriving DecidableEq, Repr

/-- The three gains as binary32 bit patterns, P, I and D (R30). -/
structure Gains where
  p : Word32
  i : Word32
  d : Word32
deriving DecidableEq, Repr

/-- The configuration. Log entry 4: it is a field of State, so that a statement about every state holds
for every configuration. -/
structure Config where
  /-- `N` (R6). -/
  chCap : Nat
  /-- `M` (R7, OPEN). -/
  faCap : Nat
  /-- `RX_TIMEOUT` (R8, OPEN): only zero and non-zero differ. -/
  rxTimeout : Nat
  /-- `ABANDON_ON_TIMEOUT` (R9). -/
  abandonOnTimeout : Bool
  /-- `LBRACKET_POLICY` (R10). -/
  lbracketPolicy : LBracketPolicy
  /-- `STATUS_ENABLED` (R11). -/
  statusEnabled : Bool
  /-- `NUM_CONV` (R13, R152): the tokens on which it differs from the reference definition R153, with
  the values it gives there. DESIGN CHOICE, log entry 6. -/
  numConvTable : List (Token × Word32)
  /-- `GAIN_RESET` (R14, OPEN). -/
  gainReset : Gains
  /-- `LED_RESET` (R14, OPEN). -/
  ledReset : Bool
  /-- How many producers push into the channel (R208). -/
  producers : Nat
deriving DecidableEq, Repr

/-- The spec's values and defaults where it gives them (R6, R9, R10, R11, R208), and the conventions of
spec/95_test_vectors.md for the OPEN parameters (DESIGN CHOICE, log entries 4, 5 and 6). -/
def Config.default : Config where
  chCap := 256
  faCap := 50
  rxTimeout := 0
  abandonOnTimeout := false
  lbracketPolicy := .data
  statusEnabled := true
  numConvTable := []
  gainReset := ⟨0x11111111, 0x22222222, 0x33333333⟩
  ledReset := false
  producers := 1

/-- FREE VALUE, with no body: what draw number `k` yields where the spec leaves a value unspecified
(R213, I-11; log entry 11). -/
opaque Config.freeWord : Nat → Word32

end Sys2Proof
end

