-- ==== Sys2Proof/Syntax.lean ====
section
/-! DEFINITION. The operations of the engine, one constructor per row of spec/opcode_table.json. -/

namespace Sys2Proof

/-- The operations (R2). The first six are agent steps, the next six are assembler operations, which a
CH_CONSUME step selects by R73, and the last seven are dispatcher operations, which a FA_END selects by
R76. -/
inductive Instr where
  /-- CH_PUSH (R101): the byte offered. -/
  | chPush (b : Byte)
  /-- CH_CONSUME (R103). -/
  | chConsume
  /-- CH_RX_TIMEOUT (R104, with FA_TIMEOUT R130). -/
  | chRxTimeout
  /-- DIAG_DRAIN (R171). -/
  | diagDrain
  /-- HOST_READ (R213): the register number. -/
  | hostRead (r : Nat)
  /-- RESET (R230). -/
  | reset
  /-- FA_START (R121). -/
  | faStart
  /-- FA_NOISE (R122): the byte discarded. -/
  | faNoise (b : Byte)
  /-- FA_END (R123). -/
  | faEnd
  /-- FA_RESTART (R124). -/
  | faRestart
  /-- FA_DATA (R125): the byte stored. -/
  | faData (b : Byte)
  /-- FA_OVERFLOW (R126): the byte discarded. -/
  | faOverflow (b : Byte)
  /-- CMD_PID (R156): T[1], T[2], T[3]. -/
  | cmdPid (p i d : Token)
  /-- CMD_LED_ON (R157). -/
  | cmdLedOn
  /-- CMD_LED_OFF (R158). -/
  | cmdLedOff
  /-- CMD_LED_BADARG (R159): T[1]. -/
  | cmdLedBadarg (arg : Token)
  /-- CMD_STATUS (R160). -/
  | cmdStatus
  /-- CMD_ARGC_MISMATCH (R161): the keyword and the arguments. -/
  | cmdArgcMismatch (kw : Keyword) (args : List Token)
  /-- CMD_UNKNOWN (R162): T[0] and the arguments. -/
  | cmdUnknown (kw : Token) (args : List Token)
deriving DecidableEq, Repr

end Sys2Proof
end

