-- ==== Sys2Proof/Decode.lean ====
section
/-! DEFINITION. Decoding at the three levels of spec/30_encoding.md (the agent's step, the assembler
word, the payload), total on every input (R78), and the encoders beside it. -/

namespace Sys2Proof

/-! ### Agent steps (R5, R204): no bits, selected by the agent -/

/-- The agent that may take a step (R204). -/
def AgentStep.agent : AgentStep → Agent
  | .producerPush _ => .producer
  | .consumerConsume => .consumer
  | .consumerTimeout => .consumer
  | .sinkDrain => .sink
  | .hostRead _ => .host
  | .hostReset => .host

/-- The operation a chosen agent step performs (the agent-step rows of the opcode table). -/
def decodeStep : AgentStep → Instr
  | .producerPush b => .chPush b
  | .consumerConsume => .chConsume
  | .consumerTimeout => .chRxTimeout
  | .sinkDrain => .diagDrain
  | .hostRead r => .hostRead r
  | .hostReset => .reset

/-! ### The assembler word (R72, R73) -/

/-- `FA_STATE` as the bit S (R26, R72). -/
def FaState.bit : FaState → BitVec 1
  | .wait => 0
  | .collect => 1

/-- `W = {FA_STATE, b}` (R72). -/
def faWord (st : FaState) (b : Byte) : BitVec 9 := st.bit ++ b

/-- The field S of W (R72). -/
def wordState (w : BitVec 9) : FaState := if w.getLsbD 8 then .collect else .wait

/-- The field B of W (R72). -/
def wordByte (w : BitVec 9) : Byte := w.extractLsb' 0 8

/-- The rows of R73 in their order, on `FA_STATE` and the byte, with the side conditions on
`LBRACKET_POLICY` and `FA_CUR < M-1`. -/
def decodeFa (c : Config) (st : FaState) (cur : Nat) (b : Byte) : Instr :=
  match st with
  | .wait => if b = LB then .faStart else .faNoise b
  | .collect =>
    if b = RB then .faEnd
    else if b = LB ∧ c.lbracketPolicy = .restart then .faRestart
    else if cur < c.faCap - 1 then .faData b
    else .faOverflow b

/-- R73 on the word W. -/
def decodeFaWord (c : Config) (cur : Nat) (w : BitVec 9) : Instr :=
  decodeFa c (wordState w) cur (wordByte w)

/-! ### The payload (R75, R76, R151, R154, R155) -/

/-- Put a byte at the front of the first token of a list of tokens. -/
def consFirst (b : Byte) : List Token → List Token
  | [] => [[b]]
  | t :: ts => (b :: t) :: ts

/-- `TOKENS(P)` (R151): split at every comma, keeping empty tokens. -/
def tokens : List Byte → List Token
  | [] => [[]]
  | b :: p => if b = COMMA then [] :: tokens p else consFirst b (tokens p)

/-- The bytes of a keyword (R154). -/
def Keyword.bytes : Keyword → Token
  | .pid => [0x50#8, 0x49#8, 0x44#8]
  | .led => [0x4C#8, 0x45#8, 0x44#8]
  | .status => [0x53#8, 0x54#8, 0x41#8, 0x54#8, 0x55#8, 0x53#8]

/-- The expected argument count of a keyword (R154). -/
def Keyword.argc : Keyword → Nat
  | .pid => 3
  | .led => 1
  | .status => 0

/-- `ON` (R76). -/
def tokenOn : Token := [0x4F#8, 0x4E#8]

/-- `OFF` (R76). -/
def tokenOff : Token := [0x4F#8, 0x46#8, 0x46#8]

/-- Whether a keyword is in the table: `STATUS` only if `STATUS_ENABLED` (R154). -/
def Keyword.present (c : Config) : Keyword → Bool
  | .pid => true
  | .led => true
  | .status => c.statusEnabled

/-- The look-up of the keyword table: a byte-exact match of the whole token (R154, R155). -/
def keywordOf (c : Config) (t : Token) : Option Keyword :=
  if t = Keyword.pid.bytes then some .pid
  else if t = Keyword.led.bytes then some .led
  else if c.statusEnabled = true ∧ t = Keyword.status.bytes then some .status
  else none

/-- R155 on the tokens: keyword, then argument count, then argument value. `TOKENS` never gives the
empty list (R151). -/
def decodeTokens (c : Config) : List Token → Instr
  | [] => .cmdUnknown [] []
  | kw :: args =>
    match keywordOf c kw with
    | none => .cmdUnknown kw args
    | some k =>
      if args.length ≠ k.argc then .cmdArgcMismatch k args
      else
        match k with
        | .pid => .cmdPid (args.getD 0 []) (args.getD 1 []) (args.getD 2 [])
        | .status => .cmdStatus
        | .led =>
          if args.getD 0 [] = tokenOn then .cmdLedOn
          else if args.getD 0 [] = tokenOff then .cmdLedOff
          else .cmdLedBadarg (args.getD 0 [])

/-- The dispatcher operation a payload selects (R76). -/
def decodePayload (c : Config) (p : List Byte) : Instr := decodeTokens c (tokens p)

/-- Decoding at all three levels. `cur` is `FA_CUR`, the state that row 5 and row 6 of R73 consult. No
input is illegal (R78). -/
def decode (c : Config) (cur : Nat) : Code → Instr
  | .agentStep a => decodeStep a
  | .faWord w => decodeFaWord c cur w
  | .payload p => decodePayload c p

/-! ### Encoders -/

/-- The tokens that select a dispatcher operation (R76); no tokens for the other operations. -/
def Instr.tokens : Instr → List Token
  | .cmdPid p i d => [Keyword.pid.bytes, p, i, d]
  | .cmdLedOn => [Keyword.led.bytes, tokenOn]
  | .cmdLedOff => [Keyword.led.bytes, tokenOff]
  | .cmdLedBadarg arg => [Keyword.led.bytes, arg]
  | .cmdStatus => [Keyword.status.bytes]
  | .cmdArgcMismatch kw args => kw.bytes :: args
  | .cmdUnknown kw args => kw :: args
  | .chPush _ | .chConsume | .chRxTimeout | .diagDrain | .hostRead _ | .reset => []
  | .faStart | .faNoise _ | .faEnd | .faRestart | .faData _ | .faOverflow _ => []

/-- Tokens separated by commas (R75). -/
def joinTokens : List Token → List Byte
  | [] => []
  | [t] => t
  | t :: u :: ts => t ++ COMMA :: joinTokens (u :: ts)

/-- The code of an operation, from the tables of R72, R73 and R76. -/
def encode : Instr → Code
  | .chPush b => .agentStep (.producerPush b)
  | .chConsume => .agentStep .consumerConsume
  | .chRxTimeout => .agentStep .consumerTimeout
  | .diagDrain => .agentStep .sinkDrain
  | .hostRead r => .agentStep (.hostRead r)
  | .reset => .agentStep .hostReset
  | .faStart => .faWord (faWord .wait LB)
  | .faNoise b => .faWord (faWord .wait b)
  | .faEnd => .faWord (faWord .collect RB)
  | .faRestart => .faWord (faWord .collect LB)
  | .faData b => .faWord (faWord .collect b)
  | .faOverflow b => .faWord (faWord .collect b)
  | .cmdPid p i d => .payload (joinTokens (Instr.cmdPid p i d).tokens)
  | .cmdLedOn => .payload (joinTokens Instr.cmdLedOn.tokens)
  | .cmdLedOff => .payload (joinTokens Instr.cmdLedOff.tokens)
  | .cmdLedBadarg arg => .payload (joinTokens (Instr.cmdLedBadarg arg).tokens)
  | .cmdStatus => .payload (joinTokens Instr.cmdStatus.tokens)
  | .cmdArgcMismatch kw args => .payload (joinTokens (Instr.cmdArgcMismatch kw args).tokens)
  | .cmdUnknown kw args => .payload (joinTokens (Instr.cmdUnknown kw args).tokens)

/-- A frame on the wire: `[`, the payload, `]` (R74, R80). -/
def frameOf (p : List Byte) : List Byte := LB :: (p ++ [RB])

/-! ### The table's rows as data (R73) -/

/-- A row of the assembler decode table: match and mask on W, the side condition of the row (on
`LBRACKET_POLICY` and on `FA_CUR < M-1`), and the operation. -/
structure FaRow where
  pattern : BitVec 9
  mask : BitVec 9
  side : LBracketPolicy → Bool → Bool
  operation : Byte → Instr

/-- R73, copied row by row. -/
def faTable : List FaRow :=
  [ ⟨0x05B, 0x1FF, fun _ _ => true, fun _ => .faStart⟩,
    ⟨0x000, 0x100, fun _ _ => true, .faNoise⟩,
    ⟨0x15D, 0x1FF, fun _ _ => true, fun _ => .faEnd⟩,
    ⟨0x15B, 0x1FF, fun policy _ => policy == .restart, fun _ => .faRestart⟩,
    ⟨0x100, 0x100, fun _ room => room, .faData⟩,
    ⟨0x100, 0x100, fun _ room => !room, .faOverflow⟩ ]

/-- Whether a row matches. -/
def FaRow.selects (r : FaRow) (c : Config) (cur : Nat) (w : BitVec 9) : Bool :=
  (w &&& r.mask == r.pattern) && r.side c.lbracketPolicy (decide (cur < c.faCap - 1))

/-! ### The opcode table's words (log entry 16) -/

/-- The configuration under which a table word is read: row 4 of R73 exists only under RESTART. -/
def tableConfig : Config := { Config.default with lbracketPolicy := .restart }

/-- Byte `k` of a table word, the first byte in the low bits. -/
def tableBytes : Nat → Nat → List Byte
  | 0, _ => []
  | k + 1, w => BitVec.ofNat 8 w :: tableBytes k (w / 256)

/-- The payload a table word of `nbits` bits spells, cut at the first NUL; none if it holds a `]`, a `[`
or does not fit the buffer. -/
def tablePayload (nbits w : Nat) : Option (List Byte) :=
  let p := (tableBytes (nbits / 8) w).takeWhile (· ≠ NUL)
  if p.all (fun b => b ≠ RB ∧ b ≠ LB) ∧ p.length ≤ tableConfig.faCap - 1 then some p else none

/-- The operation a word of the opcode table stands for: an assembler word in at most 16 bits, the bytes
of a payload in more. The agent-step rows have no bits. -/
def decodeTableWord (nbits w : Nat) : Option Instr :=
  if nbits = 0 then none
  else if nbits ≤ 16 then
    if w < 512 then some (decodeFaWord tableConfig 0 (BitVec.ofNat 9 w)) else none
  else (tablePayload nbits w).map (decodePayload tableConfig)

end Sys2Proof
end

