-- ==== Sys2Proof/Machine/State.lean ====
section
/-! DEFINITION. The state of the engine (spec/10_state.md), the ways a step can stop, and the state after
reset (spec/70_reset_and_hazards.md R230, R231). -/

namespace Sys2Proof.Machine

/-- A byte array by index: (index, byte) pairs, indices strictly rising. An unlisted index has no value
(R21, R28, I-10; log entry 8). -/
abbrev Memory := List Host.Cell

/-- `DIAG_PEND` (R32). The fields `code` and `d0` to `d2` mean something only while `valid`. -/
structure DiagPend where
  valid : Bool
  code : BitVec 8
  d0 : Word32
  d1 : Word32
  d2 : Word32
deriving DecidableEq, Repr

/-- The events of the output trace (R33). -/
inductive Event where
  /-- CH_PUSH accepted the byte. -/
  | accepted (b : Byte)
  /-- CH_PUSH dropped the byte. -/
  | dropped (b : Byte)
  /-- DIAG_DRAIN handed over a diagnostic. -/
  | diag (code : BitVec 8) (d0 d1 d2 : Word32)
  /-- HOST_READ of register `r` gave `v`. -/
  | read (r : Nat) (v : Word32)
deriving DecidableEq, Repr

/-- The machine (R20), with its configuration and the environment's choice of steps. -/
structure State where
  /-- The configuration: no step writes it (R20 preamble, R233; log entry 4). -/
  cfg : Config
  /-- `CH_BUF` (R21). -/
  chBuf : Memory
  /-- `CH_RD` (R22). -/
  chRd : Nat
  /-- `CH_WR` (R23). -/
  chWr : Nat
  /-- `CH_CNT` (R24). -/
  chCnt : Nat
  /-- `DROP_CNT` (R25). -/
  dropCnt : Word32
  /-- `FA_STATE` (R26). -/
  faState : FaState
  /-- `FA_CUR` (R27). -/
  faCur : Nat
  /-- `FA_BUF` (R28). -/
  faBuf : Memory
  /-- `OVF_CNT` (R29). -/
  ovfCnt : Word32
  /-- `GAIN[0..2]` (R30). -/
  gain : Gains
  /-- `LED` (R31). -/
  led : Bool
  /-- `DIAG_PEND` (R32). -/
  diagPend : DiagPend
  /-- The output trace, in step order (R33). -/
  trace : List Event
  /-- The MODEL's own: how many free values have been drawn (log entry 11). -/
  draws : Nat
  /-- The MODEL's own: the steps the environment has chosen and the machine has not yet taken, the next
  first (R5, R205; log entry 1). -/
  schedule : List AgentStep
deriving DecidableEq, Repr

/-- Why the machine stops with a fault. The engine has no fault outcome (R18): each of these needs a
state that breaks the invariant of Safety.lean. -/
inductive Fault where
  /-- CH_CONSUME read a byte of CH_BUF that no push has written since reset (R21). Safe (log entry 8). -/
  | chBufUnwritten (index : Nat)
  /-- FA_END read a byte of FA_BUF that nothing has written since reset (R28). Safe (log entry 8). -/
  | faBufUnwritten (index : Nat)
  /-- CH_PUSH or CH_CONSUME used an index outside 0..N-1 (R51). Safe (log entry 9). -/
  | chBufOutside (index : Nat)
  /-- FA_DATA or FA_END used an index outside 0..M-1 (R52, R129). Safe (log entry 9). -/
  | faBufOutside (index : Nat)
deriving DecidableEq, Repr

/-- Why the machine refuses (R18). -/
inductive Refusal where
  /-- An arm of exec without a meaning. Safe. -/
  | notModelled (mnemonic : String)
  /-- Every step: the number of producers is not one (R208). Safe: the spec refuses. -/
  | producerCount
  /-- Every step: `N` is out of range (R6). Safe: the spec refuses. -/
  | channelCapacity
  /-- Every step: `M` is out of range (R7). Safe: the spec refuses. -/
  | bufferCapacity
  /-- Every step: `NUM_CONV` lacks a property of R152. Safe: the spec refuses (log entry 7). -/
  | numConvUnlawful
  /-- HOST_READ of a number outside 0x00..0x0D (R213). Safe: the spec refuses. -/
  | notARegister (r : Nat)
deriving DecidableEq, Repr

/-- The state after RESET under a configuration (R230, R231), with nothing traced, drawn or scheduled.
Log entries 8 and 10 name the elements the spec leaves unspecified. -/
def State.ofConfig (c : Config) : State where
  cfg := c
  chBuf := []
  chRd := 0
  chWr := 0
  chCnt := 0
  dropCnt := 0
  faState := .wait
  faCur := 0
  faBuf := []
  ovfCnt := 0
  gain := c.gainReset
  led := c.ledReset
  diagPend := ⟨false, 0, 0, 0, 0⟩
  trace := []
  draws := 0
  schedule := []

/-- The machine right after its first RESET (R233), under the default configuration. -/
def State.reset : State := State.ofConfig Config.default

end Sys2Proof.Machine
end

