-- ==== Sys2Proof/Machine/Flags.lean ====
section
/-! DEFINITION. The flag-like outputs and enabling conditions (spec/10_state.md R36), the counters and
the diagnostic codes (spec/60_exceptions.md R200). -/

namespace Sys2Proof.Machine

/-- A counter's next value, modulo 2^32 (R12, R25, R29). -/
def bump (c : Word32) : Word32 := c + 1

/-- Whether a push is answered `Accepted` (R36, R101). -/
def State.acceptsPush (s : State) : Bool := decide (s.chCnt < s.cfg.chCap)

/-- CH_CONSUME is enabled (R103). -/
def State.consumeEnabled (s : State) : Bool := decide (0 < s.chCnt) && !s.diagPend.valid

/-- CH_RX_TIMEOUT is enabled (R104). -/
def State.timeoutEnabled (s : State) : Bool :=
  s.cfg.rxTimeout != 0 && s.chCnt == 0 && !s.diagPend.valid

/-- DIAG_DRAIN is enabled (R171). -/
def State.drainEnabled (s : State) : Bool := s.diagPend.valid

/-- One bit as a 32-bit value. -/
def bitWord (b : Bool) : Word32 := if b then 1 else 0

/-! ### Diagnostic codes (R200) -/

def diagPidOk : BitVec 8 := 0x01
def diagLedOk : BitVec 8 := 0x02
def diagStatus : BitVec 8 := 0x03
def diagMissingParams : BitVec 8 := 0x10
def diagUnknownCmd : BitVec 8 := 0x11
def diagBadArg : BitVec 8 := 0x12
def diagOverflow : BitVec 8 := 0x20

/-- The codes that are ever made (R200). -/
def diagCodes : List (BitVec 8) :=
  [diagPidOk, diagLedOk, diagStatus, diagMissingParams, diagUnknownCmd, diagBadArg, diagOverflow]

end Sys2Proof.Machine
end

