-- ==== Sys2Proof/Machine/Operands.lean ====
section
/-! DEFINITION. The operand forms (spec/30_encoding.md R77): numeric tokens and their conversion to
binary32 (spec/42_dispatcher.md R152, R153), and byte images of 32-bit values (R53). -/

namespace Sys2Proof.Machine

/-! ### The grammar of numbers (R153) -/

/-- `ws`. -/
def isWs (b : Byte) : Bool := b == 0x20#8 || (decide (0x09 ≤ b.toNat) && decide (b.toNat ≤ 0x0D))

/-- `'0'..'9'`. -/
def isDigit (b : Byte) : Bool := decide (0x30 ≤ b.toNat) && decide (b.toNat ≤ 0x39)

/-- The decimal value of a digit string. -/
def digitsValue (ds : List Byte) : Nat := ds.foldl (fun a d => a * 10 + (d.toNat - 0x30)) 0

/-- The parts of a number: sign, digits before and after the point, sign and digits of the exponent. -/
structure Numeral where
  neg : Bool
  intPart : List Byte
  fracPart : List Byte
  expNeg : Bool
  expPart : List Byte
deriving DecidableEq, Repr

/-- An optional sign: whether it is `-`, and what follows it. -/
def takeSign : List Byte → Bool × List Byte
  | [] => (false, [])
  | b :: s => if b = 0x2D#8 then (true, s) else if b = 0x2B#8 then (false, s) else (false, b :: s)

/-- The fraction after an integer part, if a point follows: its digits and what follows them. A point
without a digit on either side is no part of a number (R153 `mant`). -/
def takeFraction (intPart : List Byte) : List Byte → List Byte × List Byte
  | [] => ([], [])
  | b :: s =>
    if b = 0x2E#8 ∧ ¬ (intPart = [] ∧ s.takeWhile isDigit = []) then
      (s.takeWhile isDigit, s.dropWhile isDigit)
    else ([], b :: s)

/-- The exponent, taken only if it is complete (R153): its sign, its digits, and what follows. -/
def takeExponent : List Byte → Bool × List Byte × List Byte
  | [] => (false, [], [])
  | b :: s =>
    if (b = 0x65#8 ∨ b = 0x45#8) ∧ (takeSign s).2.takeWhile isDigit ≠ [] then
      ((takeSign s).1, (takeSign s).2.takeWhile isDigit, (takeSign s).2.dropWhile isDigit)
    else (false, [], b :: s)

/-- The longest prefix of a token that matches `number` (R153), as its parts and the rest of the token;
none if no prefix matches. -/
def parseNumber (s : Token) : Option (Numeral × List Byte) :=
  let signed := takeSign (s.dropWhile isWs)
  let intPart := signed.2.takeWhile isDigit
  let frac := takeFraction intPart (signed.2.dropWhile isDigit)
  if intPart = [] ∧ frac.1 = [] then none
  else
    let ex := takeExponent frac.2
    some (⟨signed.1, intPart, frac.1, ex.1, ex.2.1⟩, ex.2.2)

/-! ### Rounding to binary32 (R153) -/

/-- The bits of +infinity. -/
def infBits : Nat := 0x7F800000

/-- `a / b` rounded to the nearest integer, ties to even. -/
def divRne (a b : Nat) : Nat :=
  let q := a / b
  let r := a % b
  if 2 * r < b then q else if b < 2 * r then q + 1 else q + q % 2

/-- The magnitude `num / den` rounded once to binary32, as its 31 low bits. In units of 2^-149 the
magnitude is `x / den` with `x = num * 2^149`; its quantum is `2^k` units, with `k` the least for which
the quotient has at most 24 bits. -/
def roundMagnitude (num den : Nat) : Nat :=
  let x := num * 2 ^ 149
  let k := Nat.log2 (x / den) - 23
  min (k * 2 ^ 23 + divRne x (den * 2 ^ k)) infBits

/-- The magnitude `m * 10^e` rounded once to binary32, with no shortcut. -/
def roundDecimalExact (m : Nat) (e : Int) : Nat :=
  if 0 ≤ e then roundMagnitude (m * 10 ^ e.toNat) 1 else roundMagnitude m (10 ^ (-e).toNat)

/-- The same for `m < 10^n`, without a large power where the result is surely infinity or zero. -/
def roundDecimal (m n : Nat) (e : Int) : Nat :=
  if m = 0 then 0
  else if 39 ≤ e then infBits
  else if e + (n : Int) ≤ -46 then 0
  else roundDecimalExact m e

/-- The decimal significand of a numeral, its digits read as one integer. -/
def Numeral.significand (d : Numeral) : Nat := digitsValue (d.intPart ++ d.fracPart)

/-- The power of ten that scales the significand. -/
def Numeral.exponent (d : Numeral) : Int :=
  (if d.expNeg then -(digitsValue d.expPart : Int) else (digitsValue d.expPart : Int))
    - (d.fracPart.length : Int)

/-- The binary32 bits of a numeral; a `-` sign gives the negated value (R153). -/
def Numeral.bits (d : Numeral) : Word32 :=
  BitVec.ofNat 32
    ((if d.neg then 2 ^ 31 else 0) +
      roundDecimal d.significand (d.intPart ++ d.fracPart).length d.exponent)

/-- The reference definition of `NUM_CONV` (R153): +0.0 if no prefix is a number. -/
def numConvRef (t : Token) : Word32 :=
  match parseNumber t with
  | none => 0
  | some (d, _) => d.bits

/-! ### `NUM_CONV` (R13, R152) -/

/-- The configured `NUM_CONV`: the table's value where the token is listed, else the reference's. -/
def numConv (c : Config) (t : Token) : Word32 :=
  match c.numConvTable.lookup t with
  | some v => v
  | none => numConvRef t

/-- The round-trip values of R152 (5): `1.0`, `0.5`, `0.01`. -/
def roundTripValues : List (Token × Word32) :=
  [ ([0x31#8, 0x2E#8, 0x30#8], 0x3F800000#32),
    ([0x30#8, 0x2E#8, 0x35#8], 0x3F000000#32),
    ([0x30#8, 0x2E#8, 0x30#8, 0x31#8], 0x3C23D70A#32) ]

/-- R152 (4) and (5) hold for the token: +0.0 where no prefix is a number, and the round-trip value where
the token has one. -/
def numConvLawfulAt (c : Config) (t : Token) : Bool :=
  ((parseNumber t).isSome || numConv c t == 0) &&
    (match roundTripValues.lookup t with
      | some v => numConv c t == v
      | none => true)

/-- `NUM_CONV` has the properties of R152. Properties (1) to (3) hold of every table; (4) and (5) can
fail only at a listed token, since the reference has them. -/
def numConvLawful (c : Config) : Bool := c.numConvTable.all fun e => numConvLawfulAt c e.1

/-! ### Byte images (R53) -/

/-- The byte image of a 32-bit value, low byte first. No rule of the engine uses it (D24). -/
def wordBytes (w : Word32) : List Byte :=
  [w.extractLsb' 0 8, w.extractLsb' 8 8, w.extractLsb' 16 8, w.extractLsb' 24 8]

end Sys2Proof.Machine
end

