-- ==== Sys2Proof/Machine/Ops.lean ====
section
/-! DEFINITION. The named operations over the arrays, the channel, the assembler buffer, the diagnostic
register, the status view and the configuration. -/

namespace Sys2Proof.Machine

/-! ### Byte arrays -/

/-- The byte at an index, if one is listed. -/
def Memory.read : Memory → Nat → Option Byte
  | [], _ => none
  | (k, v) :: m, a => if k = a then some v else Memory.read m a

/-- Store a byte at an index, keeping the indices strictly rising. -/
def Memory.write : Memory → Nat → Byte → Memory
  | [], a, b => [(a, b)]
  | (k, v) :: m, a, b =>
    if a < k then (a, b) :: (k, v) :: m
    else if a = k then (a, b) :: m
    else (k, v) :: Memory.write m a b

/-- The canonical form: indices strictly rising. An unlisted index has no value, so no entry can equal
what an unlisted index reads as. -/
def Memory.wf : Memory → Bool
  | [] => true
  | [_] => true
  | x :: y :: m => decide (x.1 < y.1) && Memory.wf (y :: m)

/-- An array of `n` bytes 0x00, from index `i` on. -/
def Memory.zerosFrom : Nat → Nat → Memory
  | _, 0 => []
  | i, n + 1 => (i, NUL) :: Memory.zerosFrom (i + 1) n

/-- Read CH_BUF at an index (R51). -/
def State.readCh (s : State) (i : Nat) : Except Fault Byte :=
  if i < s.cfg.chCap then
    match s.chBuf.read i with
    | some b => .ok b
    | none => .error (.chBufUnwritten i)
  else .error (.chBufOutside i)

/-- Write CH_BUF at an index (R51). -/
def State.writeCh (s : State) (i : Nat) (b : Byte) : Except Fault State :=
  if i < s.cfg.chCap then .ok { s with chBuf := s.chBuf.write i b } else .error (.chBufOutside i)

/-- Read FA_BUF at an index (R52). -/
def State.readFa (s : State) (i : Nat) : Except Fault Byte :=
  if i < s.cfg.faCap then
    match s.faBuf.read i with
    | some b => .ok b
    | none => .error (.faBufUnwritten i)
  else .error (.faBufOutside i)

/-- Write FA_BUF at an index (R52, R129). -/
def State.writeFa (s : State) (i : Nat) (b : Byte) : Except Fault State :=
  if i < s.cfg.faCap then .ok { s with faBuf := s.faBuf.write i b } else .error (.faBufOutside i)

/-- The outcome of an operation that may have met a fault. -/
def settle : Except Fault State → Host.Outcome State Fault Refusal
  | .ok s => .next s
  | .error f => .fault f

/-! ### The channel (R100) -/

/-- Store an accepted byte (R101). -/
def State.enqueue (s : State) (b : Byte) : Except Fault State :=
  match s.writeCh s.chWr b with
  | .error f => .error f
  | .ok t => .ok { t with chWr := (s.chWr + 1) % s.cfg.chCap, chCnt := s.chCnt + 1 }

/-- Take the oldest byte (R103). -/
def State.dequeue (s : State) : Except Fault (Byte × State) :=
  match s.readCh s.chRd with
  | .error f => .error f
  | .ok b => .ok (b, { s with chRd := (s.chRd + 1) % s.cfg.chCap, chCnt := s.chCnt - 1 })

/-! ### Trace and diagnostics -/

/-- `emit(e)` (R17, R33). -/
def State.emit (s : State) (e : Event) : State := { s with trace := s.trace ++ [e] }

/-- The hand-off of a diagnostic into `DIAG_PEND` (R32, R170). -/
def State.makeDiag (s : State) (code : BitVec 8) (d0 d1 d2 : Word32) : State :=
  { s with diagPend := ⟨true, code, d0, d1, d2⟩ }

/-! ### The assembler buffer -/

/-- "clear buffer, reset cursor to 0", in COLLECT (R121, R124). -/
def State.clearFrame (s : State) : State :=
  { s with faBuf := Memory.zerosFrom 0 s.cfg.faCap, faCur := 0, faState := .collect }

/-- Leave the frame: WAIT with the cursor at 0 (R123, R126, R130). -/
def State.leaveFrame (s : State) : State := { s with faCur := 0, faState := .wait }

/-- The bytes of FA_BUF from index `i` up to the first 0x00, at most `k` of them. -/
def State.scanFa (s : State) : Nat → Nat → Except Fault (List Byte)
  | _, 0 => .ok []
  | i, k + 1 =>
    match s.readFa i with
    | .error f => .error f
    | .ok b =>
      if b = NUL then .ok []
      else
        match State.scanFa s (i + 1) k with
        | .error f => .error f
        | .ok p => .ok (b :: p)

/-- `PAYLOAD()` (R128): FA_BUF up to its first 0x00, within the `FA_CUR + 1` bytes that FA_END reads. -/
def State.payload (s : State) : Except Fault (List Byte) := s.scanFa 0 (s.faCur + 1)

/-! ### Which operation is selected -/

/-- The assembler operation `i` is the one that R73 selects for the byte `b` in this state, in a CONSUMER
step, which `DIAG_PEND.valid` disables (R103). -/
def State.selectsFa (s : State) (b : Byte) (i : Instr) : Bool :=
  !s.diagPend.valid && decide (decodeFa s.cfg s.faState s.faCur b = i)

/-- The dispatcher operation `i` is the one that R155 selects for its tokens, in a CONSUMER step. -/
def State.selectsCmd (s : State) (i : Instr) : Bool :=
  !s.diagPend.valid && decide (decodeTokens s.cfg i.tokens = i)

/-- An assembler operation on the byte `b`. One that is not selected is not performed and changes
nothing (R17, R73; log entry 3). -/
def performFa (b : Byte) (i : Instr) (s : State)
    (act : State → Host.Outcome State Fault Refusal) : Host.Outcome State Fault Refusal :=
  if s.selectsFa b i then act s else .next s

/-- A dispatcher operation. One that is not selected is not performed and changes nothing (R17, R76;
log entry 3). -/
def performCmd (i : Instr) (s : State) (act : State → State) :
    Host.Outcome State Fault Refusal :=
  .next (if s.selectsCmd i then act s else s)

/-! ### The status view (R37) -/

/-- The value of a status register and how many free values it draws; none for a number that is no
register. `DIAG_CODE` and `DIAG_D0` to `DIAG_D2` while not valid are draws (R213, log entry 11). -/
def State.view (s : State) (r : Nat) : Option (Word32 × Nat) :=
  let pending (w : Word32) : Word32 × Nat :=
    if s.diagPend.valid then (w, 0) else (Config.freeWord s.draws, 1)
  match r with
  | 0x00 => some (BitVec.ofNat 32 s.chCnt, 0)
  | 0x01 => some (s.dropCnt, 0)
  | 0x02 => some (s.faState.bit.setWidth 32, 0)
  | 0x03 => some (BitVec.ofNat 32 s.faCur, 0)
  | 0x04 => some (s.ovfCnt, 0)
  | 0x05 => some (s.gain.p, 0)
  | 0x06 => some (s.gain.i, 0)
  | 0x07 => some (s.gain.d, 0)
  | 0x08 => some (bitWord s.led, 0)
  | 0x09 => some (bitWord s.diagPend.valid, 0)
  | 0x0A =>
    let v := pending (s.diagPend.code.setWidth 32)
    some ((v.1.setWidth 8).setWidth 32, v.2)
  | 0x0B => some (pending s.diagPend.d0)
  | 0x0C => some (pending s.diagPend.d1)
  | 0x0D => some (pending s.diagPend.d2)
  | _ => none

/-! ### Reset and configuration -/

/-- RESET (R230). The elements it leaves unspecified become unlisted or zero (log entries 8 and 10); the
trace is not cleared (R33); configuration, schedule and draws are not the engine's state. -/
def State.applyReset (s : State) : State :=
  { s with
    chBuf := [], chRd := 0, chWr := 0, chCnt := 0, dropCnt := 0,
    faState := .wait, faCur := 0, faBuf := [], ovfCnt := 0,
    gain := s.cfg.gainReset, led := s.cfg.ledReset, diagPend := ⟨false, 0, 0, 0, 0⟩ }

/-- The refusal of a configuration outside the admitted set, if it is outside (R18). -/
def configRefusal (c : Config) : Option Refusal :=
  if c.producers ≠ 1 then some .producerCount
  else if c.chCap = 0 then some .channelCapacity
  else if c.faCap = 0 then some .bufferCapacity
  else if numConvLawful c = false then some .numConvUnlawful
  else none

/-! ### Placing a table word (log entries 15 and 16) -/

/-- The state in which the CONSUMER takes the byte `b` next, with the assembler in `st` at cursor 0. -/
def State.withNextByte (s : State) (st : FaState) (b : Byte) : State :=
  { s with
    cfg := { s.cfg with faCap := max s.cfg.faCap 2 }
    chBuf := s.chBuf.write s.chRd b
    chWr := if s.chCnt = 0 then (s.chRd + 1) % s.cfg.chCap else s.chWr
    chCnt := max s.chCnt 1
    faState := st
    faCur := 0
    diagPend := { s.diagPend with valid := false }
    schedule := .consumerConsume :: s.schedule }

/-- Store bytes at consecutive indices. -/
def Memory.writeAll : Memory → Nat → List Byte → Memory
  | m, _, [] => m
  | m, i, b :: p => Memory.writeAll (m.write i b) (i + 1) p

/-- The state in which the CONSUMER takes the `]` that ends a frame with the payload `p` next. -/
def State.withNextPayload (s : State) (p : List Byte) : State :=
  { s.withNextByte .collect RB with
    cfg := { s.cfg with faCap := max s.cfg.faCap (p.length + 1), statusEnabled := true }
    faBuf := s.faBuf.writeAll 0 p
    faCur := p.length }

/-- `LBRACKET_POLICY` becomes RESTART for the one word that only RESTART decodes to its row. -/
def State.withPolicyFor (s : State) (w : Nat) : State :=
  if w = 0x15B then { s with cfg := { s.cfg with lbracketPolicy := .restart } } else s

/-- Place a table word so that the next step runs its operation; a word that is none changes nothing. -/
def State.placeWord (s : State) (nbits w : Nat) : State :=
  if nbits = 0 then s
  else if nbits ≤ 16 then
    if w < 512 then
      (s.withPolicyFor w).withNextByte (wordState (BitVec.ofNat 9 w)) (wordByte (BitVec.ofNat 9 w))
    else s
  else
    match tablePayload nbits w with
    | some p => s.withNextPayload p
    | none => s

end Sys2Proof.Machine
end

