-- ==== Sys2Proof/Machine/CommandDispatcher.lean ====
section
/-! DEFINITION. The dispatcher operations and the diagnostic drain (spec/42_dispatcher.md). -/

namespace Sys2Proof.Machine

/-- CMD_PID (R156): the three conversions, one group store, and the confirmation that echoes them. -/
def execCmdPid (p i d : Token) (s : State) : Host.Outcome State Fault Refusal :=
  performCmd (.cmdPid p i d) s fun s =>
    let g : Gains := ⟨numConv s.cfg p, numConv s.cfg i, numConv s.cfg d⟩
    { s with gain := g }.makeDiag diagPidOk g.p g.i g.d

/-- CMD_LED_ON (R157). -/
def execCmdLedOn (s : State) : Host.Outcome State Fault Refusal :=
  performCmd .cmdLedOn s fun s => { s with led := true }.makeDiag diagLedOk 1 0 0

/-- CMD_LED_OFF (R158). -/
def execCmdLedOff (s : State) : Host.Outcome State Fault Refusal :=
  performCmd .cmdLedOff s fun s => { s with led := false }.makeDiag diagLedOk 0 0 0

/-- CMD_LED_BADARG (R159). -/
def execCmdLedBadarg (arg : Token) (s : State) : Host.Outcome State Fault Refusal :=
  performCmd (.cmdLedBadarg arg) s fun s => s.makeDiag diagBadArg 0 0 0

/-- CMD_STATUS (R160): the counters as they stand at this step. -/
def execCmdStatus (s : State) : Host.Outcome State Fault Refusal :=
  performCmd .cmdStatus s fun s => s.makeDiag diagStatus s.dropCnt s.ovfCnt 0

/-- CMD_ARGC_MISMATCH (R161). -/
def execCmdArgcMismatch (kw : Keyword) (args : List Token) (s : State) :
    Host.Outcome State Fault Refusal :=
  performCmd (.cmdArgcMismatch kw args) s fun s => s.makeDiag diagMissingParams 0 0 0

/-- CMD_UNKNOWN (R162). -/
def execCmdUnknown (kw : Token) (args : List Token) (s : State) :
    Host.Outcome State Fault Refusal :=
  performCmd (.cmdUnknown kw args) s fun s => s.makeDiag diagUnknownCmd 0 0 0

/-- Perform a dispatcher operation. R76 selects none of the others, which change nothing. -/
def execCmd (i : Instr) (s : State) : Host.Outcome State Fault Refusal :=
  match i with
  | .cmdPid p i d => execCmdPid p i d s
  | .cmdLedOn => execCmdLedOn s
  | .cmdLedOff => execCmdLedOff s
  | .cmdLedBadarg arg => execCmdLedBadarg arg s
  | .cmdStatus => execCmdStatus s
  | .cmdArgcMismatch kw args => execCmdArgcMismatch kw args s
  | .cmdUnknown kw args => execCmdUnknown kw args s
  | .chPush _ | .chConsume | .chRxTimeout | .diagDrain | .hostRead _ | .reset => .next s
  | .faStart | .faNoise _ | .faEnd | .faRestart | .faData _ | .faOverflow _ => .next s

/-- `DISPATCH(P)` (R150). -/
def dispatch (p : List Byte) (s : State) : Host.Outcome State Fault Refusal :=
  execCmd (decodePayload s.cfg p) s

/-- DIAG_DRAIN (R171). While nothing is pending the step does not happen (R17, log entry 2). -/
def execDiagDrain (s : State) : Host.Outcome State Fault Refusal :=
  if s.drainEnabled then
    let d := s.diagPend
    .next { s.emit (.diag d.code d.d0 d.d1 d.d2) with diagPend := { d with valid := false } }
  else .next s

end Sys2Proof.Machine
end

