-- ==== Sys2Proof/Machine/FrameAssembler.lean ====
section
/-! DEFINITION. The assembler operations (spec/41_frame_assembler.md). -/

namespace Sys2Proof.Machine

/-- FA_START (R121). -/
def execFaStart (s : State) : Host.Outcome State Fault Refusal :=
  performFa LB .faStart s fun s => .next s.clearFrame

/-- FA_NOISE (R122): the byte is discarded and no state is written. -/
def execFaNoise (b : Byte) (s : State) : Host.Outcome State Fault Refusal :=
  performFa b (.faNoise b) s fun s => .next s

/-- FA_END (R123): terminate the buffer, take the payload, leave the frame and dispatch, in one step. -/
def execFaEnd (s : State) : Host.Outcome State Fault Refusal :=
  performFa RB .faEnd s fun s =>
    match s.writeFa s.faCur NUL with
    | .error f => .fault f
    | .ok t =>
      match t.payload with
      | .error f => .fault f
      | .ok p => dispatch p t.leaveFrame

/-- FA_RESTART (R124): the partial frame is abandoned in silence. -/
def execFaRestart (s : State) : Host.Outcome State Fault Refusal :=
  performFa LB .faRestart s fun s => .next s.clearFrame

/-- FA_DATA (R125). -/
def execFaData (b : Byte) (s : State) : Host.Outcome State Fault Refusal :=
  performFa b (.faData b) s fun s =>
    match s.writeFa s.faCur b with
    | .error f => .fault f
    | .ok t => .next { t with faCur := s.faCur + 1 }

/-- FA_OVERFLOW (R126): the byte is lost and the frame is abandoned. -/
def execFaOverflow (b : Byte) (s : State) : Host.Outcome State Fault Refusal :=
  performFa b (.faOverflow b) s fun s =>
    .next ({ s.leaveFrame with ovfCnt := bump s.ovfCnt }.makeDiag diagOverflow 0 0 0)

/-- Perform an assembler operation. R73 selects none of the others, which change nothing. -/
def execFa (i : Instr) (s : State) : Host.Outcome State Fault Refusal :=
  match i with
  | .faStart => execFaStart s
  | .faNoise b => execFaNoise b s
  | .faEnd => execFaEnd s
  | .faRestart => execFaRestart s
  | .faData b => execFaData b s
  | .faOverflow b => execFaOverflow b s
  | .chPush _ | .chConsume | .chRxTimeout | .diagDrain | .hostRead _ | .reset => .next s
  | .cmdPid _ _ _ | .cmdLedOn | .cmdLedOff | .cmdLedBadarg _ | .cmdStatus => .next s
  | .cmdArgcMismatch _ _ | .cmdUnknown _ _ => .next s

/-- `FA_STEP(b)` (R120). -/
def faStep (b : Byte) (s : State) : Host.Outcome State Fault Refusal :=
  execFa (decodeFa s.cfg s.faState s.faCur b) s

/-- `FA_TIMEOUT()` (R130). -/
def faTimeout (s : State) : State :=
  if s.cfg.abandonOnTimeout = true ∧ s.faState = .collect then s.leaveFrame else s

end Sys2Proof.Machine
end

