-- ==== Sys2Proof/Machine/ByteChannel.lean ====
section
/-! DEFINITION. The channel operations (spec/40_byte_channel.md). -/

namespace Sys2Proof.Machine

/-- CH_PUSH (R101, R102): store and answer `Accepted`, or count and answer `Dropped`. -/
def execChPush (b : Byte) (s : State) : Host.Outcome State Fault Refusal :=
  if s.acceptsPush then
    match s.enqueue b with
    | .error f => .fault f
    | .ok t => .next (t.emit (.accepted b))
  else .next ({ s with dropCnt := bump s.dropCnt }.emit (.dropped b))

/-- CH_CONSUME (R103): dequeue one byte and run the assembler on it, in one step. A disabled step does
not happen (R17, log entry 2). -/
def execChConsume (s : State) : Host.Outcome State Fault Refusal :=
  if s.consumeEnabled then
    match s.dequeue with
    | .error f => .fault f
    | .ok (b, t) => faStep b t
  else .next s

/-- CH_RX_TIMEOUT (R104). A disabled step does not happen (R17, log entry 2). -/
def execChRxTimeout (s : State) : Host.Outcome State Fault Refusal :=
  if s.timeoutEnabled then .next (faTimeout s) else .next s

end Sys2Proof.Machine
end

