-- ==== Sys2Proof/Machine/HostAccess.lean ====
section
/-! DEFINITION. The HOST's operations (spec/60_exceptions.md R213, spec/70_reset_and_hazards.md R230). -/

namespace Sys2Proof.Machine

/-- HOST_READ (R213): one `Read` event, or a refusal for a number that is no register. -/
def execHostRead (r : Nat) (s : State) : Host.Outcome State Fault Refusal :=
  match s.view r with
  | some (v, k) => .next { s.emit (.read r v) with draws := s.draws + k }
  | none => .refused (.notARegister r)

/-- RESET (R230). -/
def execReset (s : State) : Host.Outcome State Fault Refusal := .next s.applyReset

end Sys2Proof.Machine
end

