-- ==== Sys2Proof/Machine/Dispatch.lean ====
section
/-! DEFINITION. The meaning of every operation, one arm per constructor. -/

namespace Sys2Proof.Machine

def exec (i : Instr) (s : State) : Host.Outcome State Fault Refusal :=
  match i with
  -- agent steps
  | .chPush b => Sys2Proof.Machine.execChPush b s
  | .chConsume => Sys2Proof.Machine.execChConsume s
  | .chRxTimeout => Sys2Proof.Machine.execChRxTimeout s
  | .diagDrain => Sys2Proof.Machine.execDiagDrain s
  | .hostRead r => Sys2Proof.Machine.execHostRead r s
  | .reset => Sys2Proof.Machine.execReset s
  -- assembler operations
  | .faStart => Sys2Proof.Machine.execFaStart s
  | .faNoise b => Sys2Proof.Machine.execFaNoise b s
  | .faEnd => Sys2Proof.Machine.execFaEnd s
  | .faRestart => Sys2Proof.Machine.execFaRestart s
  | .faData b => Sys2Proof.Machine.execFaData b s
  | .faOverflow b => Sys2Proof.Machine.execFaOverflow b s
  -- dispatcher operations
  | .cmdPid p q d => Sys2Proof.Machine.execCmdPid p q d s
  | .cmdLedOn => Sys2Proof.Machine.execCmdLedOn s
  | .cmdLedOff => Sys2Proof.Machine.execCmdLedOff s
  | .cmdLedBadarg arg => Sys2Proof.Machine.execCmdLedBadarg arg s
  | .cmdStatus => Sys2Proof.Machine.execCmdStatus s
  | .cmdArgcMismatch kw args => Sys2Proof.Machine.execCmdArgcMismatch kw args s
  | .cmdUnknown kw args => Sys2Proof.Machine.execCmdUnknown kw args s

end Sys2Proof.Machine
end

