-- ==== Sys2Proof/Machine/Step.lean ====
section
/-! DEFINITION. One step: the configuration is checked (spec/00_scope.md R18), and the next scheduled
agent step is taken (R5, R205). -/

namespace Sys2Proof.Machine

/-- One step. With nothing scheduled no agent steps and nothing changes (log entry 1). -/
def step (s : State) : Host.Outcome State Fault Refusal :=
  match configRefusal s.cfg with
  | some r => .refused r
  | none =>
    match s.schedule with
    | [] => .next s
    | a :: rest => exec (decodeStep a) { s with schedule := rest }

/-- Place a table word where the next step runs it (log entries 15 and 16). -/
def State.withFetchWord (s : State) (nbits w : Nat) : State := s.placeWord nbits w

end Sys2Proof.Machine
end

