-- ==== Sys2Proof/WellFormed.lean ====
section
/-! DEFINITION. Well-formed operations: operands that the encoding admits (spec/30_encoding.md R73,
R74, R76; spec/10_state.md R37). -/

namespace Sys2Proof

/-- A byte that a payload can hold at dispatch: not `]` (R123), not NUL (R128), and not `[` under
RESTART (R124). -/
def payloadByteOk (c : Config) (b : Byte) : Bool :=
  b != RB && b != NUL && !(b == LB && c.lbracketPolicy == .restart)

/-- A token that can stand in a payload: payload bytes without a comma (R151). -/
def tokenOk (c : Config) (t : Token) : Bool :=
  t.all fun b => payloadByteOk c b && b != COMMA

/-- The tokens can stand in one payload: each is a token and the payload has at most `M-1` bytes
(R74, R128). -/
def tokensOk (c : Config) (ts : List Token) : Bool :=
  ts.all (tokenOk c) && decide ((joinTokens ts).length ≤ c.faCap - 1)

/-- The checks on an operation's operands. -/
def Instr.wf (c : Config) : Instr → Bool
  | .chPush _ => true
  | .chConsume => true
  | .chRxTimeout => true
  | .diagDrain => true
  | .hostRead r => decide (r ≤ 0x0D)
  | .reset => true
  | .faStart => true
  | .faNoise b => b != LB
  | .faEnd => true
  | .faRestart => c.lbracketPolicy == .restart
  | .faData b => b != RB && !(b == LB && c.lbracketPolicy == .restart) && decide (1 < c.faCap)
  | .faOverflow b => b != RB && !(b == LB && c.lbracketPolicy == .restart)
  | .cmdPid p i d => tokensOk c [Keyword.pid.bytes, p, i, d]
  | .cmdLedOn => tokensOk c [Keyword.led.bytes, tokenOn]
  | .cmdLedOff => tokensOk c [Keyword.led.bytes, tokenOff]
  | .cmdLedBadarg arg =>
    arg != tokenOn && arg != tokenOff && tokensOk c [Keyword.led.bytes, arg]
  | .cmdStatus => c.statusEnabled && tokensOk c [Keyword.status.bytes]
  | .cmdArgcMismatch kw args =>
    kw.present c && args.length != kw.argc && tokensOk c (kw.bytes :: args)
  | .cmdUnknown kw args => keywordOf c kw == none && tokensOk c (kw :: args)

/-- The side condition on `FA_CUR` of rows 5 and 6 of R73. -/
def Instr.sideOk (c : Config) (cur : Nat) : Instr → Bool
  | .faData _ => decide (cur < c.faCap - 1)
  | .faOverflow _ => decide (cur = c.faCap - 1)
  | .chPush _ | .chConsume | .chRxTimeout | .diagDrain | .hostRead _ | .reset => true
  | .faStart | .faNoise _ | .faEnd | .faRestart => true
  | .cmdPid _ _ _ | .cmdLedOn | .cmdLedOff | .cmdLedBadarg _ | .cmdStatus => true
  | .cmdArgcMismatch _ _ | .cmdUnknown _ _ => true

end Sys2Proof
end

