-- ==== Sys2Proof/Safety.lean ====
section
/-! DEFINITION. What a safe run is: the invariant of the machine, the channel and the partial frame seen as
byte lists (spec/40_byte_channel.md R100), the engine written over those lists, and the declarative
forms of the number grammar and of a binary32 magnitude that statements use. -/

namespace Sys2Proof.Machine

/-! ### The arrays as lists -/

/-- The unread bytes, oldest first: the list `Q` of R24 and R100. -/
def State.queue (s : State) : List Byte :=
  (List.range s.chCnt).map fun j => (s.chBuf.read ((s.chRd + j) % s.cfg.chCap)).getD NUL

/-- The bytes collected so far: `FA_BUF[0..FA_CUR)`. -/
def State.collected (s : State) : List Byte :=
  (List.range s.faCur).map fun j => (s.faBuf.read j).getD NUL

/-! ### The invariant -/

/-- What holds at reset and after every step. -/
structure State.Inv (s : State) : Prop where
  /-- The configuration is admitted (R18). -/
  admitted : configRefusal s.cfg = none
  /-- CH_BUF is in canonical form, with indices in `0..N-1` (R51). -/
  chBufCanonical : s.chBuf.wf = true
  chBufInside : ∀ e ∈ s.chBuf, e.1 < s.cfg.chCap
  /-- FA_BUF is in canonical form, with indices in `0..M-1` (R52, R129). -/
  faBufCanonical : s.faBuf.wf = true
  faBufInside : ∀ e ∈ s.faBuf, e.1 < s.cfg.faCap
  /-- R22, R24, R105. -/
  chRdInside : s.chRd < s.cfg.chCap
  chCntBound : s.chCnt ≤ s.cfg.chCap
  /-- R23: `CH_WR = (CH_RD + CH_CNT) mod N`. -/
  chWrPlace : s.chWr = (s.chRd + s.chCnt) % s.cfg.chCap
  /-- Every unread byte has been written (R21). -/
  chWritten : ∀ j < s.chCnt, (s.chBuf.read ((s.chRd + j) % s.cfg.chCap)).isSome = true
  /-- R27, R127. -/
  faCurBound : s.faCur < s.cfg.faCap
  waitCursor : s.faState = .wait → s.faCur = 0
  /-- Every collected byte has been written (R28). -/
  faWritten : ∀ j < s.faCur, (s.faBuf.read j).isSome = true
  /-- Codes outside the table are never made (R200). -/
  diagCode : s.diagPend.valid = true → s.diagPend.code ∈ diagCodes

/-- The cursor part alone (R127), for a configuration with `M >= 1`. -/
def State.CursorInside (s : State) : Prop :=
  s.faCur < s.cfg.faCap ∧ (s.faState = .wait → s.faCur = 0)

/-- A safe run of `k` steps: no fault, and no refusal but that of a HOST_READ of no register (R18). -/
def SafeRun (k : Nat) (s : State) : Prop :=
  (∃ t, Host.Core.run core k s = .next t) ∨
    ∃ r, 0x0D < r ∧ Host.Core.run core k s = .refused (.notARegister r)

/-! ### What a dispatch does, on tokens (R154 to R162) -/

/-- The keyword table as keyword bytes with their argument counts (R154). -/
def keywordTable (c : Config) : List (Token × Nat) :=
  [([0x50#8, 0x49#8, 0x44#8], 3), ([0x4C#8, 0x45#8, 0x44#8], 1)] ++
    (if c.statusEnabled then [([0x53#8, 0x54#8, 0x41#8, 0x54#8, 0x55#8, 0x53#8], 0)] else [])

/-- The gains, the LED and the diagnostic that a dispatch of the payload `p` leaves, with the checks of
R155 in their order. -/
def dispatchEffect (c : Config) (drops overflows : Word32) (g : Gains) (led : Bool)
    (p : List Byte) : Gains × Bool × DiagPend :=
  let kw := (tokens p).headD []
  let args := (tokens p).tail
  match (keywordTable c).lookup kw with
  | none => (g, led, ⟨true, 0x11, 0, 0, 0⟩)
  | some count =>
    if args.length ≠ count then (g, led, ⟨true, 0x10, 0, 0, 0⟩)
    else if kw = [0x50#8, 0x49#8, 0x44#8] then
      let new : Gains :=
        ⟨numConv c (args.getD 0 []), numConv c (args.getD 1 []), numConv c (args.getD 2 [])⟩
      (new, led, ⟨true, 0x01, new.p, new.i, new.d⟩)
    else if kw = [0x53#8, 0x54#8, 0x41#8, 0x54#8, 0x55#8, 0x53#8] then
      (g, led, ⟨true, 0x03, drops, overflows, 0⟩)
    else if args.getD 0 [] = [0x4F#8, 0x4E#8] then (g, true, ⟨true, 0x02, 1, 0, 0⟩)
    else if args.getD 0 [] = [0x4F#8, 0x46#8, 0x46#8] then (g, false, ⟨true, 0x02, 0, 0, 0⟩)
    else (g, led, ⟨true, 0x12, 0, 0, 0⟩)

/-! ### The engine over lists (R24, R100, R39) -/

/-- The engine with the channel as a list, the partial frame as a list (none in WAIT), and no
diagnostic fields while nothing is pending. -/
structure Abstract where
  cfg : Config
  queue : List Byte
  dropCnt : Word32
  frame : Option (List Byte)
  ovfCnt : Word32
  gain : Gains
  led : Bool
  diag : Option (BitVec 8 × Word32 × Word32 × Word32)
  trace : List Event
  draws : Nat
  schedule : List AgentStep
deriving DecidableEq, Repr

/-- What a state is over lists. -/
def State.abstract (s : State) : Abstract where
  cfg := s.cfg
  queue := s.queue
  dropCnt := s.dropCnt
  frame := if s.faState = .wait then none else some s.collected
  ovfCnt := s.ovfCnt
  gain := s.gain
  led := s.led
  diag :=
    if s.diagPend.valid then
      some (s.diagPend.code, s.diagPend.d0, s.diagPend.d1, s.diagPend.d2)
    else none
  trace := s.trace
  draws := s.draws
  schedule := s.schedule

/-- A diagnostic record over lists. -/
def Abstract.withDiag (a : Abstract) (d : DiagPend) : Abstract :=
  { a with diag := some (d.code, d.d0, d.d1, d.d2) }

/-- The assembler takes a byte (R73). -/
def Abstract.take (a : Abstract) (b : Byte) : Abstract :=
  match a.frame with
  | none => if b = LB then { a with frame := some [] } else a
  | some p =>
    if b = RB then
      let e := dispatchEffect a.cfg a.dropCnt a.ovfCnt a.gain a.led (p.takeWhile (· ≠ NUL))
      { a with frame := none, gain := e.1, led := e.2.1 }.withDiag e.2.2
    else if b = LB ∧ a.cfg.lbracketPolicy = .restart then { a with frame := some [] }
    else if p.length + 1 < a.cfg.faCap then { a with frame := some (p ++ [b]) }
    else { a with frame := none, ovfCnt := a.ovfCnt + 1 }.withDiag ⟨true, 0x20, 0, 0, 0⟩

/-- The status view (R37): the value and the number of draws. -/
def Abstract.view (a : Abstract) (r : Nat) : Option (Word32 × Nat) :=
  let d := a.diag.getD
    ((Config.freeWord a.draws).setWidth 8, Config.freeWord a.draws, Config.freeWord a.draws,
      Config.freeWord a.draws)
  let k := if a.diag.isSome then 0 else 1
  [ (BitVec.ofNat 32 a.queue.length, 0), (a.dropCnt, 0),
    (if a.frame.isSome then 1 else 0, 0), (BitVec.ofNat 32 (a.frame.getD []).length, 0),
    (a.ovfCnt, 0), (a.gain.p, 0), (a.gain.i, 0), (a.gain.d, 0),
    (if a.led then 1 else 0, 0), (if a.diag.isSome then 1 else 0, 0),
    (d.1.setWidth 32, k), (d.2.1, k), (d.2.2.1, k), (d.2.2.2, k) ][r]?

/-- One step over lists; none is a refusal. -/
def Abstract.step (a : Abstract) : Option Abstract :=
  match a.schedule with
  | [] => some a
  | x :: rest =>
    let a := { a with schedule := rest }
    match x with
    | .producerPush b =>
      if a.queue.length < a.cfg.chCap then
        some { a with queue := a.queue ++ [b], trace := a.trace ++ [.accepted b] }
      else some { a with dropCnt := a.dropCnt + 1, trace := a.trace ++ [.dropped b] }
    | .consumerConsume =>
      match a.diag, a.queue with
      | none, b :: q => some ({ a with queue := q }.take b)
      | _, _ => some a
    | .consumerTimeout =>
      if a.cfg.rxTimeout ≠ 0 ∧ a.queue = [] ∧ a.diag = none ∧ a.cfg.abandonOnTimeout = true then
        some { a with frame := none }
      else some a
    | .sinkDrain =>
      match a.diag with
      | some (code, d0, d1, d2) =>
        some { a with diag := none, trace := a.trace ++ [.diag code d0 d1 d2] }
      | none => some a
    | .hostRead r =>
      (a.view r).map fun v =>
        { a with trace := a.trace ++ [.read r v.1], draws := a.draws + v.2 }
    | .hostReset =>
      some { a with
        queue := [], dropCnt := 0, frame := none, ovfCnt := 0, gain := a.cfg.gainReset,
        led := a.cfg.ledReset, diag := none }

/-! ### Runs -/

/-- The byte the next step adds to the channel, if any. -/
def State.nextPushed (s : State) : List Byte :=
  match s.schedule with
  | .producerPush b :: _ => if s.acceptsPush then [b] else []
  | _ => []

/-- The byte the next step delivers to the assembler, if any. -/
def State.nextDelivered (s : State) : List Byte :=
  match s.schedule with
  | .consumerConsume :: _ => if s.consumeEnabled then s.queue.take 1 else []
  | _ => []

/-- `k` steps: the bytes accepted, the bytes delivered, and the state reached; none if one stops. -/
def runLog : Nat → State → Option (List Byte × List Byte × State)
  | 0, s => some ([], [], s)
  | k + 1, s =>
    match step s with
    | .next t =>
      (runLog k t).map fun r => (s.nextPushed ++ r.1, s.nextDelivered ++ r.2.1, r.2.2)
    | .fault _ => none
    | .refused _ => none

/-- The eager schedule E of spec/95_test_vectors.md: push, consume and drain for each byte (a drain with
nothing pending does not happen). -/
def eagerSchedule : List Byte → List AgentStep
  | [] => []
  | b :: bs => .producerPush b :: .consumerConsume :: .sinkDrain :: eagerSchedule bs

/-! ### The number grammar, declaratively (R153) -/

/-- `[sign]`: the bytes spell no sign, `+` or `-`. -/
def SpellsSign (neg : Bool) (p : List Byte) : Prop :=
  (p = [] ∧ neg = false) ∨ (p = [0x2B#8] ∧ neg = false) ∨ (p = [0x2D#8] ∧ neg = true)

/-- `digits`. -/
def SpellsDigits (ds : List Byte) : Prop := ds ≠ [] ∧ ∀ b ∈ ds, isDigit b = true

/-- `mant`: `digits ['.' [digits]] | '.' digits`. -/
def SpellsMantissa (intPart fracPart p : List Byte) : Prop :=
  (SpellsDigits intPart ∧ fracPart = [] ∧ (p = intPart ∨ p = intPart ++ [0x2E#8])) ∨
    (SpellsDigits intPart ∧ SpellsDigits fracPart ∧ p = intPart ++ 0x2E#8 :: fracPart) ∨
    (intPart = [] ∧ SpellsDigits fracPart ∧ p = 0x2E#8 :: fracPart)

/-- `[exp]`: `('e' | 'E') [sign] digits`. -/
def SpellsExponent (expNeg : Bool) (expPart p : List Byte) : Prop :=
  (p = [] ∧ expPart = [] ∧ expNeg = false) ∨
    ∃ e sg, (e = 0x65#8 ∨ e = 0x45#8) ∧ SpellsSign expNeg sg ∧ SpellsDigits expPart ∧
      p = e :: (sg ++ expPart)

/-- `number`: the bytes spell the numeral. -/
def Numeral.SpelledBy (d : Numeral) (p : List Byte) : Prop :=
  ∃ ws sg mant ex, p = ws ++ sg ++ mant ++ ex ∧ (∀ b ∈ ws, isWs b = true) ∧
    SpellsSign d.neg sg ∧ SpellsMantissa d.intPart d.fracPart mant ∧
    SpellsExponent d.expNeg d.expPart ex

/-- The decimal value of a numeral without its sign. -/
def Numeral.magnitude (d : Numeral) : ℚ :=
  (digitsValue d.intPart + digitsValue d.fracPart / 10 ^ d.fracPart.length) *
    10 ^ (if d.expNeg then -(digitsValue d.expPart : Int) else (digitsValue d.expPart : Int))

/-- No prefix of the token is a number. -/
def NoNumericPrefix (t : Token) : Prop := ∀ d p, p <+: t → ¬ Numeral.SpelledBy d p

/-! ### Binary32 magnitudes -/

/-- The value of a finite binary32 magnitude, in units of 2^-149. -/
def magnitudeUnits (bits : Nat) : Nat :=
  if bits / 2 ^ 23 = 0 then bits else (2 ^ 23 + bits % 2 ^ 23) * 2 ^ (bits / 2 ^ 23 - 1)

/-- How far the magnitude `bits` is from `num / den`, in units of 2^-149, times `den`. -/
def roundingError (num den bits : Nat) : Nat :=
  ((den * magnitudeUnits bits : Int) - (num * 2 ^ 149 : Int)).natAbs

end Sys2Proof.Machine
end

