-- ==== Sys2Proof/Certificates/Slice0/Obligations.lean ====
section
/-! DEFINITION. The statements about the engine, from the numbered rules of spec/. -/

open Sys2Proof Sys2Proof.Machine

/-! ### Decoding and encoding -/

/-- R73: the decoder gives the operation of the FIRST row of the table that matches, for every word,
configuration and cursor, and some row matches. -/
def Obligations.AssemblerDecodeIsFirstMatchingRow : Prop :=
  ∀ (c : Config) (cur : Nat) (w : BitVec 9),
    ∃ row, faTable.find? (fun r => r.selects c cur w) = some row ∧
      decodeFaWord c cur w = row.operation (w.setWidth 8)

/-- R151: there is one token more than there are commas, no token holds a comma, and the tokens joined by
commas are the payload. -/
def Obligations.TokensSplitAtEveryComma : Prop :=
  ∀ p : List Byte,
    (tokens p).length = p.count COMMA + 1 ∧ (∀ t ∈ tokens p, COMMA ∉ t) ∧
      joinTokens (tokens p) = p

/-- R155: the checks in their order, keyword before count before value, for every list of tokens with a
keyword token `kw` and arguments `args`. -/
def Obligations.DispatchSelectionFollowsCheckOrder : Prop :=
  ∀ (c : Config) (kw : Token) (args : List Token),
    ((keywordTable c).lookup kw = none → decodeTokens c (kw :: args) = .cmdUnknown kw args) ∧
    (∀ n, (keywordTable c).lookup kw = some n → args.length ≠ n →
      ∃ k : Keyword, k.bytes = kw ∧ k.argc = n ∧ decodeTokens c (kw :: args) = .cmdArgcMismatch k args) ∧
    (∀ p i d, kw = [0x50#8, 0x49#8, 0x44#8] → args = [p, i, d] →
      decodeTokens c (kw :: args) = .cmdPid p i d) ∧
    (kw = [0x53#8, 0x54#8, 0x41#8, 0x54#8, 0x55#8, 0x53#8] → c.statusEnabled = true → args = [] →
      decodeTokens c (kw :: args) = .cmdStatus) ∧
    (∀ a, kw = [0x4C#8, 0x45#8, 0x44#8] → args = [a] →
      decodeTokens c (kw :: args) =
        if a = [0x4F#8, 0x4E#8] then .cmdLedOn
        else if a = [0x4F#8, 0x46#8, 0x46#8] then .cmdLedOff
        else .cmdLedBadarg a)

/-- Decoding the code of a well-formed operation gives the operation back, at every operand value, for
every cursor that meets its side condition. -/
def Obligations.DecodeOfEncodeIsTheOperation : Prop :=
  ∀ (c : Config) (cur : Nat) (i : Instr),
    i.wf c = true → i.sideOk c cur = true → decode c cur (encode i) = i

/-- A few codes written out from the tables of R73 and R76, at the default configuration. -/
def Obligations.SpecWordsDecodeToTheirOperations : Prop :=
  decodeFaWord Config.default 0 0x05B = .faStart ∧
  decodeFaWord Config.default 0 0x05D = .faNoise 0x5D ∧
  decodeFaWord Config.default 3 0x15D = .faEnd ∧
  decodeFaWord { Config.default with lbracketPolicy := .restart } 3 0x15B = .faRestart ∧
  decodeFaWord Config.default 3 0x15B = .faData 0x5B ∧
  decodeFaWord Config.default 49 0x141 = .faOverflow 0x41 ∧
  decodePayload Config.default [0x4C#8, 0x45#8, 0x44#8, 0x2C#8, 0x4F#8, 0x4E#8] = .cmdLedOn ∧
  decodePayload Config.default [0x53#8, 0x54#8, 0x41#8, 0x54#8, 0x55#8, 0x53#8] = .cmdStatus ∧
  decodeStep (.producerPush 0x41) = .chPush 0x41

/-! ### The step -/

/-- With an admitted configuration, a step is exec of the operation of the agent step scheduled next, in
the state with that choice taken off the schedule; with nothing scheduled nothing changes (the model's
choice, log entry 1). -/
def Obligations.StepRunsTheScheduledOperation : Prop :=
  ∀ (s : State), configRefusal s.cfg = none →
    (∀ a rest, s.schedule = a :: rest →
      step s = exec (decodeStep a) { s with schedule := rest }) ∧
    (s.schedule = [] → step s = .next s)

/-- R18, R208, R6, R7, R152 (4): every step refuses a configuration with two or more producers, a capacity of
zero, or a `NUM_CONV` that gives a token without a numeric prefix anything but +0.0. That no producer at all
is refused too, and that every step answers the refusal before any agent steps, is the model's reading (log
entry 17, DEDUCED). A `NUM_CONV` that breaks only property (5) is refused by log entry 7; no clause here
speaks of it. -/
def Obligations.StepRefusesInadmissibleConfigurations : Prop :=
  ∀ (s : State),
    (s.cfg.producers ≠ 1 ∨ s.cfg.chCap = 0 ∨ s.cfg.faCap = 0 ∨
      (∃ t, parseNumber t = none ∧ numConv s.cfg t ≠ 0)) →
    ∃ r, step s = .refused r

/-- R17: an agent step whose enabling condition is false does not happen and changes nothing: CH_CONSUME
(R103), CH_RX_TIMEOUT (R104), DIAG_DRAIN (R171). That such a step, when chosen, answers a next state is the
model's reading (log entry 2, DEDUCED). -/
def Obligations.DisabledStepsChangeNothing : Prop :=
  ∀ (s : State),
    (s.chCnt = 0 ∨ s.diagPend.valid = true → exec .chConsume s = .next s) ∧
    (s.cfg.rxTimeout = 0 ∨ s.chCnt ≠ 0 ∨ s.diagPend.valid = true →
      exec .chRxTimeout s = .next s) ∧
    (s.diagPend.valid = false → exec .diagDrain s = .next s)

/-- The model's choice (log entry 3): an assembler or dispatcher operation that is not the one selected for
its byte or its tokens, or stands in a state in which the CONSUMER takes no step, is not performed and
changes nothing. -/
def Obligations.UnselectedOperationsChangeNothing : Prop :=
  ∀ (s : State) (b : Byte) (i : Instr),
    (s.diagPend.valid = true ∨ decodeFa s.cfg s.faState s.faCur b ≠ i →
      (i = .faStart ∨ i = .faEnd ∨ i = .faRestart → b = if i = .faEnd then RB else LB) →
      i ∈ [.faStart, .faNoise b, .faEnd, .faRestart, .faData b, .faOverflow b] →
      exec i s = .next s) ∧
    (s.diagPend.valid = true ∨ decodeTokens s.cfg i.tokens ≠ i → i.tokens ≠ [] →
      exec i s = .next s)

/-! ### The byte channel -/

/-- R101, R102: CH_PUSH answers a next state for every byte. With room it stores the byte at `CH_WR` and
advances the pointer and the count; when full it only counts the drop. Nothing else changes. -/
def Obligations.PushStoresOrCountsADrop : Prop :=
  ∀ (s : State) (b : Byte), s.chWr < s.cfg.chCap →
    (s.chCnt < s.cfg.chCap →
      ∃ t, exec (.chPush b) s = .next t ∧
        t.chBuf.read s.chWr = some b ∧
        (∀ a, a ≠ s.chWr → t.chBuf.read a = s.chBuf.read a) ∧
        t = { s with
          chBuf := t.chBuf
          chWr := (s.chWr + 1) % s.cfg.chCap
          chCnt := s.chCnt + 1
          trace := s.trace ++ [.accepted b] }) ∧
    (¬ s.chCnt < s.cfg.chCap →
      exec (.chPush b) s =
        .next { s with dropCnt := s.dropCnt + 1, trace := s.trace ++ [.dropped b] })

/-- R103, R120: an enabled CH_CONSUME takes the oldest byte, advances the pointer, lowers the count, and
in the same step performs the one assembler operation that R73 selects for that byte in the state as it
stood. -/
def Obligations.ConsumeRunsTheSelectedAssemblerOperation : Prop :=
  ∀ (s : State) (b : Byte),
    0 < s.chCnt → s.diagPend.valid = false → s.chRd < s.cfg.chCap →
    s.chBuf.read s.chRd = some b →
    exec .chConsume s =
      exec (decodeFa s.cfg s.faState s.faCur b)
        { s with chRd := (s.chRd + 1) % s.cfg.chCap, chCnt := s.chCnt - 1 }

/-- An enabled CH_CONSUME completes in every state of the invariant: it removes exactly the oldest byte
and leaves the channel's storage, the write pointer and the drop count alone (R55, R63, R103). -/
def Obligations.ConsumeCompletesAndRemovesTheOldestByte : Prop :=
  ∀ (s : State), s.Inv → 0 < s.chCnt → s.diagPend.valid = false →
    ∃ t b, exec .chConsume s = .next t ∧
      s.queue = b :: t.queue ∧ t.chCnt = s.chCnt - 1 ∧
      t.chRd = (s.chRd + 1) % s.cfg.chCap ∧ t.chWr = s.chWr ∧ t.chBuf = s.chBuf ∧
      t.dropCnt = s.dropCnt ∧ t.trace = s.trace

/-- R104, R130: an enabled CH_RX_TIMEOUT abandons the frame exactly when ABANDON_ON_TIMEOUT is set and a
frame is being collected; otherwise it writes nothing. -/
def Obligations.TimeoutAbandonsOnlyUnderThePolicy : Prop :=
  ∀ (s : State), s.cfg.rxTimeout ≠ 0 → s.chCnt = 0 → s.diagPend.valid = false →
    (s.cfg.abandonOnTimeout = true ∧ s.faState = .collect →
      exec .chRxTimeout s = .next { s with faCur := 0, faState := .wait }) ∧
    (s.cfg.abandonOnTimeout = false ∨ s.faState = .wait → exec .chRxTimeout s = .next s)

/-- From R106, for pushes with no other step of any kind between them (R106 itself asks only for no consume
between them): from a state of the invariant such a burst accepts the first `N - c` bytes and drops the
rest, in order, and touches nothing but the channel, the drop count and the trace. -/
def Obligations.BurstDropsExactlyTheExcess : Prop :=
  ∀ (s : State) (bs : List Byte) (rest : List AgentStep), s.Inv →
    s.schedule = bs.map .producerPush ++ rest →
    ∃ t, Host.Core.run core bs.length s = .next t ∧
      t.queue = s.queue ++ bs.take (s.cfg.chCap - s.chCnt) ∧
      t.chCnt = min s.cfg.chCap (s.chCnt + bs.length) ∧
      t.dropCnt = s.dropCnt + BitVec.ofNat 32 (bs.length - (s.cfg.chCap - s.chCnt)) ∧
      t.trace = s.trace ++ (bs.take (s.cfg.chCap - s.chCnt)).map .accepted
        ++ (bs.drop (s.cfg.chCap - s.chCnt)).map .dropped ∧
      t = { s with
        chBuf := t.chBuf, chWr := t.chWr, chCnt := t.chCnt, dropCnt := t.dropCnt
        trace := t.trace, schedule := rest }

/-- R59, R105: along any run without RESET from a state of the invariant, the bytes first in the channel
followed by the bytes accepted are the bytes delivered to the assembler followed by the bytes still in
the channel: none is reordered, lost or delivered twice. -/
def Obligations.ChannelDeliversInAcceptedOrder : Prop :=
  ∀ (k : Nat) (s t : State) (accepted delivered : List Byte), s.Inv →
    .hostReset ∉ s.schedule → runLog k s = some (accepted, delivered, t) →
    s.queue ++ accepted = delivered ++ t.queue ∧ t.queue.length = t.chCnt ∧
      t.chCnt ≤ t.cfg.chCap

/-! ### The frame assembler -/

/-- R121: FA_START, selected by `[` in WAIT, clears all M bytes of the buffer, sets the cursor to 0 and
goes to COLLECT; nothing else changes. -/
def Obligations.StartClearsTheBufferAndCollects : Prop :=
  ∀ (s : State), s.faState = .wait → s.diagPend.valid = false →
    ∃ t, exec .faStart s = .next t ∧
      (∀ i < s.cfg.faCap, t.faBuf.read i = some NUL) ∧
      t = { s with faBuf := t.faBuf, faCur := 0, faState := .collect }

/-- R124: FA_RESTART, selected by `[` in COLLECT under RESTART at every cursor, clears the buffer and
stays in COLLECT with the cursor at 0, with no diagnostic and no counter. Under DATA no byte selects it. -/
def Obligations.RestartClearsTheBufferAndStaysCollecting : Prop :=
  ∀ (s : State), s.faState = .collect → s.diagPend.valid = false →
    (s.cfg.lbracketPolicy = .restart →
      decodeFa s.cfg s.faState s.faCur LB = .faRestart ∧
      ∃ t, exec .faRestart s = .next t ∧
        (∀ i < s.cfg.faCap, t.faBuf.read i = some NUL) ∧
        t = { s with faBuf := t.faBuf, faCur := 0, faState := .collect }) ∧
    (s.cfg.lbracketPolicy = .data → ∀ b, decodeFa s.cfg s.faState s.faCur b ≠ .faRestart)

/-- R122: FA_NOISE, for any byte but `[` in WAIT, writes no state. -/
def Obligations.NoiseWritesNothing : Prop :=
  ∀ (s : State) (b : Byte), s.faState = .wait → b ≠ LB → exec (.faNoise b) s = .next s

/-- R125: FA_DATA stores the byte at the cursor and advances it; every other byte of the buffer and all
other state is unchanged. -/
def Obligations.DataStoresTheByteAtTheCursor : Prop :=
  ∀ (s : State) (b : Byte), s.faState = .collect → s.diagPend.valid = false → b ≠ RB →
    ¬ (b = LB ∧ s.cfg.lbracketPolicy = .restart) → s.faCur + 1 < s.cfg.faCap →
    ∃ t, exec (.faData b) s = .next t ∧
      t.faBuf.read s.faCur = some b ∧
      (∀ a, a ≠ s.faCur → t.faBuf.read a = s.faBuf.read a) ∧
      t = { s with faBuf := t.faBuf, faCur := s.faCur + 1 }

/-- R126: FA_OVERFLOW discards the byte, counts modulo 2^32, returns to WAIT with the cursor at 0 and
hands over DIAG_OVERFLOW; the buffer is not written and nothing is dispatched. -/
def Obligations.OverflowAbandonsTheFrameAndReports : Prop :=
  ∀ (s : State) (b : Byte), s.faState = .collect → s.diagPend.valid = false → b ≠ RB →
    ¬ (b = LB ∧ s.cfg.lbracketPolicy = .restart) → s.faCur + 1 = s.cfg.faCap →
    exec (.faOverflow b) s = .next { s with
      ovfCnt := s.ovfCnt + 1
      faCur := 0
      faState := .wait
      diagPend := ⟨true, 0x20, 0, 0, 0⟩ }

/-- R123, R128, R150: FA_END writes the terminator at the cursor, takes the collected bytes up to the
first 0x00 as the payload, returns to WAIT with the cursor at 0, and dispatches that payload in the same
step: it IS the operation the payload decodes to, in that state. -/
def Obligations.FrameEndRunsTheSelectedDispatch : Prop :=
  ∀ (s : State), s.faState = .collect → s.diagPend.valid = false → s.faCur < s.cfg.faCap →
    (∀ j < s.faCur, (s.faBuf.read j).isSome = true) →
    exec .faEnd s =
      exec (decodePayload s.cfg (s.collected.takeWhile (· ≠ NUL)))
        { s with faBuf := s.faBuf.write s.faCur NUL, faCur := 0, faState := .wait }

/-- R123, R150, R155 to R162: FA_END completes, with the gains, the LED and the one diagnostic that the
payload's tokens call for; the terminator is the only byte stored, and nothing else changes. -/
def Obligations.FrameEndLeavesTheDispatchEffect : Prop :=
  ∀ (s : State), s.faState = .collect → s.diagPend.valid = false → s.faCur < s.cfg.faCap →
    (∀ j < s.faCur, (s.faBuf.read j).isSome = true) →
    ∃ t, exec .faEnd s = .next t ∧
      t.faBuf.read s.faCur = some NUL ∧
      (∀ a, a ≠ s.faCur → t.faBuf.read a = s.faBuf.read a) ∧
      (t.gain, t.led, t.diagPend) =
        dispatchEffect s.cfg s.dropCnt s.ovfCnt s.gain s.led
          (s.collected.takeWhile (· ≠ NUL)) ∧
      t = { s with
        faBuf := t.faBuf, faCur := 0, faState := .wait
        gain := t.gain, led := t.led, diagPend := t.diagPend }

/-- R127: with `M >= 1`, the cursor stays in `0..M-1` and is 0 in WAIT, across every step from every state
where that holds. -/
def Obligations.CursorStaysInsideTheBuffer : Prop :=
  ∀ (s t : State), s.CursorInside → step s = .next t → t.CursorInside

/-- R127 at reset: for every configuration with `M >= 1`. -/
def Obligations.CursorInsideAtReset : Prop :=
  ∀ (c : Config), 1 ≤ c.faCap → (State.ofConfig c).CursorInside

/-- R131: a CH_CONSUME changes the gains or the LED, or makes a diagnostic other than DIAG_OVERFLOW, only
when it takes `]` in COLLECT. -/
def Obligations.OnlyAFrameEndDispatches : Prop :=
  ∀ (s t : State) (b : Byte), s.diagPend.valid = false → s.chBuf.read s.chRd = some b →
    exec .chConsume s = .next t →
    (t.gain ≠ s.gain ∨ t.led ≠ s.led ∨
      (t.diagPend ≠ s.diagPend ∧ t.diagPend.code ≠ 0x20)) →
    s.faState = .collect ∧ b = RB

/-- R132: from any state of the invariant with an empty channel and nothing pending, the bytes `]`, `[`,
`p`, `]` under the eager schedule lead to a dispatch of `p`: its diagnostic is the last event, and its
effect on the gains and the LED is applied to what the first `]` left. -/
def Obligations.OneEndByteResynchronises : Prop :=
  ∀ (s : State) (p : List Byte) (rest : List AgentStep), s.Inv →
    s.chCnt = 0 → s.diagPend.valid = false → p.length + 1 ≤ s.cfg.faCap →
    (∀ b ∈ p, b ≠ LB ∧ b ≠ RB ∧ b ≠ NUL) →
    s.schedule = eagerSchedule ([RB] ++ frameOf p) ++ rest →
    ∃ t, Host.Core.run core (3 * (p.length + 3)) s = .next t ∧ t.schedule = rest ∧
      t.faState = .wait ∧ t.chCnt = 0 ∧ t.diagPend.valid = false ∧
      (let first := dispatchEffect s.cfg s.dropCnt s.ovfCnt s.gain s.led
          (s.collected.takeWhile (· ≠ NUL))
       let before : Gains × Bool :=
          if s.faState = .wait then (s.gain, s.led) else (first.1, first.2.1)
       let e := dispatchEffect s.cfg s.dropCnt s.ovfCnt before.1 before.2 p
       t.gain = e.1 ∧ t.led = e.2.1 ∧
        t.trace.getLast? = some (.diag e.2.2.code e.2.2.d0 e.2.2.d1 e.2.2.d2))

/-- R79, R126: under the eager schedule, a start byte and M payload bytes (no `]`, and no `[` under
RESTART) overflow at the M-th: one overflow counted, one DIAG_OVERFLOW and no other diagnostic, WAIT, and
the gains, the LED and the drop count as they were. -/
def Obligations.OverlongPayloadOverflowsAtTheMthByte : Prop :=
  ∀ (s : State) (p : List Byte) (rest : List AgentStep), s.Inv →
    s.chCnt = 0 → s.diagPend.valid = false → s.faState = .wait → p.length = s.cfg.faCap →
    (∀ b ∈ p, b ≠ RB ∧ ¬ (b = LB ∧ s.cfg.lbracketPolicy = .restart)) →
    s.schedule = eagerSchedule (LB :: p) ++ rest →
    ∃ t, Host.Core.run core (3 * (p.length + 1)) s = .next t ∧ t.schedule = rest ∧
      t.faState = .wait ∧ t.faCur = 0 ∧ t.ovfCnt = s.ovfCnt + 1 ∧ t.diagPend.valid = false ∧
      t.trace = s.trace ++ (LB :: p).map .accepted ++ [.diag 0x20 0 0 0] ∧
      t.gain = s.gain ∧ t.led = s.led ∧ t.dropCnt = s.dropCnt

/-! ### The command dispatcher -/

/-- R156: CMD_PID converts its three tokens, stores the three gains in one step and echoes them; nothing
else changes. It completes for every three tokens. -/
def Obligations.PidStoresThreeGainsAndEchoesThem : Prop :=
  ∀ (s : State) (p i d : Token), s.diagPend.valid = false →
    exec (.cmdPid p i d) s = .next { s with
      gain := ⟨numConv s.cfg p, numConv s.cfg i, numConv s.cfg d⟩
      diagPend := ⟨true, 0x01, numConv s.cfg p, numConv s.cfg i, numConv s.cfg d⟩ }

/-- R157, R158: CMD_LED_ON and CMD_LED_OFF write the LED and confirm, also when the LED has that value
already; nothing else changes. -/
def Obligations.LedCommandsWriteTheLedAndConfirm : Prop :=
  ∀ (s : State), s.diagPend.valid = false →
    exec .cmdLedOn s = .next { s with led := true, diagPend := ⟨true, 0x02, 1, 0, 0⟩ } ∧
    exec .cmdLedOff s = .next { s with led := false, diagPend := ⟨true, 0x02, 0, 0, 0⟩ }

/-- R159: CMD_LED_BADARG, for every argument but `ON` and `OFF`, only reports. -/
def Obligations.BadLedArgumentOnlyReports : Prop :=
  ∀ (s : State) (a : Token), s.diagPend.valid = false →
    a ≠ [0x4F#8, 0x4E#8] → a ≠ [0x4F#8, 0x46#8, 0x46#8] →
    exec (.cmdLedBadarg a) s = .next { s with diagPend := ⟨true, 0x12, 0, 0, 0⟩ }

/-- R160: CMD_STATUS, when STATUS is a keyword, only reports the two counters as they stand. -/
def Obligations.StatusReportsTheCounters : Prop :=
  ∀ (s : State), s.diagPend.valid = false → s.cfg.statusEnabled = true →
    exec .cmdStatus s = .next { s with diagPend := ⟨true, 0x03, s.dropCnt, s.ovfCnt, 0⟩ }

/-- R161: CMD_ARGC_MISMATCH, for every keyword in the table and every count but its own, only reports. -/
def Obligations.ArgumentCountMismatchOnlyReports : Prop :=
  ∀ (s : State) (k : Keyword) (args : List Token), s.diagPend.valid = false →
    (k = .status → s.cfg.statusEnabled = true) →
    args.length ≠ (match k with | .pid => 3 | .led => 1 | .status => 0) →
    exec (.cmdArgcMismatch k args) s = .next { s with diagPend := ⟨true, 0x10, 0, 0, 0⟩ }

/-- R162: CMD_UNKNOWN, for every first token not in the keyword table and any arguments, only reports. -/
def Obligations.UnknownKeywordOnlyReports : Prop :=
  ∀ (s : State) (kw : Token) (args : List Token), s.diagPend.valid = false →
    (keywordTable s.cfg).lookup kw = none →
    exec (.cmdUnknown kw args) s = .next { s with diagPend := ⟨true, 0x11, 0, 0, 0⟩ }

/-- R163, R164: across every step from every state, the gains change only by RESET or by a CMD_PID step
that stores all three and echoes them, leaving the LED alone, and the LED changes only by RESET or by a
step that confirms it, leaving the gains alone. -/
def Obligations.GainsAndLedChangeOnlyByTheirCommands : Prop :=
  ∀ (s t : State), step s = .next t → s.schedule.head? ≠ some .hostReset →
    (t.gain ≠ s.gain → t.led = s.led ∧ s.schedule.head? = some .consumerConsume ∧
      t.diagPend = ⟨true, 0x01, t.gain.p, t.gain.i, t.gain.d⟩ ∧
      ∃ p i d, t.gain = ⟨numConv s.cfg p, numConv s.cfg i, numConv s.cfg d⟩) ∧
    (t.led ≠ s.led → t.gain = s.gain ∧ s.schedule.head? = some .consumerConsume ∧
      t.diagPend = ⟨true, 0x02, if t.led then 1 else 0, 0, 0⟩)

/-! ### Numeric conversion -/

/-- R153: the conversion reads the longest prefix that the grammar spells, and none when no prefix is a
number. -/
def Obligations.NumberPrefixIsTheLongest : Prop :=
  ∀ t : Token,
    (parseNumber t = none → NoNumericPrefix t) ∧
    (∀ d rest, parseNumber t = some (d, rest) →
      ∃ p, t = p ++ rest ∧ d.SpelledBy p ∧
        ∀ d' q, q <+: t → Numeral.SpelledBy d' q → q.length ≤ p.length)

/-- R153: the magnitude is rounded once to the nearest binary32 value, ties to even, and is infinity
exactly at or above 2^128 (1 - 2^-25). -/
def Obligations.MagnitudeRoundsToNearestEven : Prop :=
  ∀ (num den : Nat), 0 < den →
    (roundMagnitude num den = 0x7F800000 ↔ den * (2 ^ 128 - 2 ^ 103) ≤ num) ∧
    (roundMagnitude num den ≠ 0x7F800000 →
      roundMagnitude num den < 0x7F800000 ∧
      ∀ y < 0x7F800000,
        roundingError num den (roundMagnitude num den) ≤ roundingError num den y ∧
        (y ≠ roundMagnitude num den →
          roundingError num den (roundMagnitude num den) = roundingError num den y →
          roundMagnitude num den % 2 = 0))

/-- The conversion's shortcuts for very large and very small exponents give what rounding the exact
decimal value gives. -/
def Obligations.DecimalShortcutsAreExact : Prop :=
  ∀ (m n : Nat) (e : Int), m < 10 ^ n → roundDecimal m n e = roundDecimalExact m e

/-- R153: the reference conversion of a token is the decimal value of the prefix it reads, rounded once, with
the sign bit for a `-`. -/
def Obligations.ReferenceConversionRoundsThePrefixOnce : Prop :=
  ∀ (t : Token) (d : Numeral) (rest : List Byte), parseNumber t = some (d, rest) →
    ∃ num den : Nat, 0 < den ∧ (num : ℚ) / den = d.magnitude ∧
      numConvRef t =
        BitVec.ofNat 32 ((if d.neg then 2 ^ 31 else 0) + roundMagnitude num den)

/-- R152: under every admitted configuration the conversion gives +0.0 to every token without a numeric
prefix and the nearest binary32 value to each round-trip token. That a configuration is admitted only with
the round-trip values, property (5), is the model's reading (log entry 7, DEDUCED). -/
def Obligations.NumericConversionProperties : Prop :=
  ∀ (c : Config), configRefusal c = none →
    (∀ t, NoNumericPrefix t → numConv c t = 0x00000000) ∧
    numConv c [0x31#8, 0x2E#8, 0x30#8] = 0x3F800000 ∧
    numConv c [0x30#8, 0x2E#8, 0x35#8] = 0x3F000000 ∧
    numConv c [0x30#8, 0x2E#8, 0x30#8, 0x31#8] = 0x3C23D70A

/-- The model's form of the NUM_CONV parameter (log entry 6) leaves out no conversion: each function with
the properties of R152 agrees with an admitted table on all tokens up to any length. -/
def Obligations.EveryLawfulConversionHasATable : Prop :=
  ∀ (c : Config) (f : Token → Word32) (len : Nat),
    configRefusal c = none →
    (∀ t, parseNumber t = none → f t = 0) →
    f [0x31#8, 0x2E#8, 0x30#8] = 0x3F800000 → f [0x30#8, 0x2E#8, 0x35#8] = 0x3F000000 →
    f [0x30#8, 0x2E#8, 0x30#8, 0x31#8] = 0x3C23D70A →
    ∃ table, configRefusal { c with numConvTable := table } = none ∧
      ∀ t, t.length ≤ len → numConv { c with numConvTable := table } t = f t

/-! ### Diagnostics, host access and reset -/

/-- R171: DIAG_DRAIN, while a diagnostic is pending, emits it whole and clears `valid`; all other state is
unchanged. That code and data keep their values is the model's reading (log entry 12, DEDUCED): the spec
leaves them unspecified while not valid. -/
def Obligations.DrainEmitsThePendingDiagnostic : Prop :=
  ∀ (s : State), s.diagPend.valid = true →
    exec .diagDrain s = .next { s with
      trace := s.trace ++ [.diag s.diagPend.code s.diagPend.d0 s.diagPend.d1 s.diagPend.d2]
      diagPend := { s.diagPend with valid := false } }

/-- R170: no step overwrites or loses a pending diagnostic: it stays as it is, or DIAG_DRAIN emits it, or
RESET discards it. -/
def Obligations.PendingDiagnosticIsNeverOverwritten : Prop :=
  ∀ (s t : State), step s = .next t → s.diagPend.valid = true →
    t.diagPend = s.diagPend ∨
    (s.schedule.head? = some .sinkDrain ∧ t.diagPend.valid = false ∧
      t.trace = s.trace ++ [.diag s.diagPend.code s.diagPend.d0 s.diagPend.d1 s.diagPend.d2]) ∨
    s.schedule.head? = some .hostReset

/-- R32, R236: while a diagnostic is pending the CONSUMER takes no byte. In the model its chosen steps answer
next states, and any number of them leaves everything but the schedule as it was. R18 lists Stuck apart from
Next state; that the stuck CONSUMER shows as steps that change nothing is the model's reading (log entry 2,
DEDUCED). -/
def Obligations.ConsumerIsStuckWhileADiagnosticPends : Prop :=
  ∀ (s : State) (xs rest : List AgentStep), configRefusal s.cfg = none →
    s.diagPend.valid = true → (∀ x ∈ xs, x.agent = .consumer) → s.schedule = xs ++ rest →
    Host.Core.run core xs.length s = .next { s with schedule := rest }

/-- R37, R213: HOST_READ of a register 0x00 to 0x0D emits one Read event with the register's value of R37,
zero-extended to 32 bits, and writes no state of the engine; any other number is refused. The model's
choices here: CH_CNT and FA_CUR are read as their low 32 bits for every N and M (log entry 18, DESIGN
CHOICE), and while no diagnostic is pending the four diagnostic registers read a free value, of 8 bits for
DIAG_CODE (log entry 11, DESIGN CHOICE). -/
def Obligations.HostReadEmitsTheStatusValue : Prop :=
  ∀ (s : State) (r : Nat),
    (r ≤ 0x0D →
      ∃ t v, exec (.hostRead r) s = .next t ∧
        t = { s with trace := s.trace ++ [.read r v], draws := t.draws } ∧
        (r = 0x00 → v = BitVec.ofNat 32 s.chCnt) ∧
        (r = 0x01 → v = s.dropCnt) ∧
        (r = 0x02 → v = if s.faState = .collect then 1 else 0) ∧
        (r = 0x03 → v = BitVec.ofNat 32 s.faCur) ∧
        (r = 0x04 → v = s.ovfCnt) ∧
        (r = 0x05 → v = s.gain.p) ∧
        (r = 0x06 → v = s.gain.i) ∧
        (r = 0x07 → v = s.gain.d) ∧
        (r = 0x08 → v = if s.led then 1 else 0) ∧
        (r = 0x09 → v = if s.diagPend.valid then 1 else 0) ∧
        (r = 0x0A → v.toNat < 256 ∧ (s.diagPend.valid = true → v = s.diagPend.code.setWidth 32)) ∧
        (r = 0x0B → s.diagPend.valid = true → v = s.diagPend.d0) ∧
        (r = 0x0C → s.diagPend.valid = true → v = s.diagPend.d1) ∧
        (r = 0x0D → s.diagPend.valid = true → v = s.diagPend.d2)) ∧
    (0x0D < r → exec (.hostRead r) s = .refused (.notARegister r))

/-- R230: RESET completes from every state and sets every element the rule names; no event is emitted and the
trace is not cleared (R33). That the configuration and the schedule are unchanged is the model's reading (log
entry 14, DEDUCED). -/
def Obligations.ResetSetsEveryNamedElement : Prop :=
  ∀ (s : State), ∃ t, exec .reset s = .next t ∧
    t.chRd = 0 ∧ t.chWr = 0 ∧ t.chCnt = 0 ∧ t.dropCnt = 0 ∧ t.ovfCnt = 0 ∧
    t.faState = .wait ∧ t.faCur = 0 ∧ t.gain = s.cfg.gainReset ∧ t.led = s.cfg.ledReset ∧
    t.diagPend.valid = false ∧ t.trace = s.trace ∧ t.cfg = s.cfg ∧ t.schedule = s.schedule

/-- R231: the state the machine starts in, for every configuration, has the values the rule lists, and a
trace with no event. -/
def Obligations.StartStateHasTheResetValues : Prop :=
  ∀ (c : Config),
    (State.ofConfig c).cfg = c ∧
    (State.ofConfig c).chRd = 0 ∧ (State.ofConfig c).chWr = 0 ∧ (State.ofConfig c).chCnt = 0 ∧
    (State.ofConfig c).dropCnt = 0 ∧ (State.ofConfig c).faState = .wait ∧
    (State.ofConfig c).faCur = 0 ∧ (State.ofConfig c).ovfCnt = 0 ∧
    (State.ofConfig c).gain = c.gainReset ∧ (State.ofConfig c).led = c.ledReset ∧
    (State.ofConfig c).diagPend.valid = false ∧ (State.ofConfig c).trace = []

/-! ### The whole machine -/

/-- The invariant holds in the start state of every admitted configuration. -/
def Obligations.StartStateMeetsTheInvariant : Prop :=
  ∀ (c : Config), configRefusal c = none → (State.ofConfig c).Inv

/-- Every step keeps the invariant: canonical arrays inside their bounds, pointers and counts inside
theirs, `CH_WR = (CH_RD + CH_CNT) mod N`, unread and collected bytes written, the cursor inside the buffer
and 0 in WAIT, and no diagnostic code but those of R200. -/
def Obligations.EveryStepKeepsTheMachineInvariant : Prop :=
  ∀ (s t : State), s.Inv → step s = .next t → t.Inv

/-- R18: from every state of the invariant, a run of any length never faults, and stops only by the
refusal of a HOST_READ of a number that is no register. -/
def Obligations.RunsNeverFault : Prop :=
  ∀ (k : Nat) (s : State), s.Inv → SafeRun k s

/-- R100: the engine with arrays and pointers steps exactly as the engine over lists does, outcome by
outcome, from every state of the invariant. Bytes of FA_BUF beyond the cursor have no part in it (R39). Both
engines take the model's readings of log entries 1, 2, 11 and 18 (schedule, disabled steps, status view). -/
def Obligations.ArrayEngineRefinesTheListEngine : Prop :=
  ∀ (s : State), s.Inv →
    (∀ t, step s = .next t → s.abstract.step = some t.abstract) ∧
    (∀ r, step s = .refused r → s.abstract.step = none)

/-- R64, R38: no step writes the configuration. -/
def Obligations.NoStepWritesTheConfiguration : Prop :=
  ∀ (s t : State), step s = .next t → t.cfg = s.cfg

/-- R21 to R31, R212: what each agent's step leaves alone. The PRODUCER writes only the channel's store,
write pointer, count, the drop count and the trace; the CONSUMER leaves the channel's store, write
pointer, the drop count and the trace; the SINK writes only `valid` and the trace; a HOST_READ writes
only the trace (and the model's count of draws). That code and data survive a drain is the model's reading
(log entry 12, DEDUCED): D37 leaves them unspecified while not valid. -/
def Obligations.AgentsWriteOnlyTheirOwnElements : Prop :=
  ∀ (s t : State) (x : AgentStep) (rest : List AgentStep), step s = .next t →
    s.schedule = x :: rest →
    (x.agent = .producer → t = { s with
      chBuf := t.chBuf, chWr := t.chWr, chCnt := t.chCnt, dropCnt := t.dropCnt
      trace := t.trace, schedule := rest }) ∧
    (x.agent = .consumer → t = { s with
      chRd := t.chRd, chCnt := t.chCnt, faState := t.faState, faCur := t.faCur
      faBuf := t.faBuf, ovfCnt := t.ovfCnt, gain := t.gain, led := t.led
      diagPend := t.diagPend, schedule := rest }) ∧
    (x.agent = .sink → t = { s with
      diagPend := { s.diagPend with valid := t.diagPend.valid }
      trace := t.trace, schedule := rest }) ∧
    (∀ r, x = .hostRead r → t = { s with
      trace := t.trace, draws := t.draws, schedule := rest })

/-- R25, R29, R126, R200: across every step but RESET, DROP_CNT grows modulo 2^32 by the number of Dropped
events the step adds, and OVF_CNT by one exactly when the step makes DIAG_OVERFLOW. -/
def Obligations.CountersCountTheirEvents : Prop :=
  ∀ (s t : State), step s = .next t → s.schedule.head? ≠ some .hostReset →
    (∃ events, t.trace = s.trace ++ events ∧
      t.dropCnt = s.dropCnt + BitVec.ofNat 32
        (events.countP fun e => match e with | .dropped _ => true | _ => false)) ∧
    (t.ovfCnt = s.ovfCnt ∨ t.ovfCnt = s.ovfCnt + 1) ∧
    (t.ovfCnt = s.ovfCnt + 1 ↔
      s.diagPend.valid = false ∧ t.diagPend.valid = true ∧ t.diagPend.code = 0x20)

/-- The trace only grows: no step, RESET among them, removes an event (R33). -/
def Obligations.TraceOnlyGrows : Prop :=
  ∀ (s t : State), step s = .next t → s.trace <+: t.trace ∧ t.trace.length ≤ s.trace.length + 1
end

