-- ==== Sys2Proof/Laws/Decode.lean ====
section
/-! SUPPORT. The laws of the decoder and the tokenizer. -/

namespace Sys2Proof

@[simp] theorem consFirst_nil (b : Byte) : consFirst b [] = [[b]] := rfl
@[simp] theorem consFirst_cons (b : Byte) (t : Token) (ts : List Token) :
    consFirst b (t :: ts) = (b :: t) :: ts := rfl
@[simp] theorem tokens_nil : tokens [] = [[]] := rfl
@[simp] theorem tokens_comma (p : List Byte) : tokens (COMMA :: p) = [] :: tokens p := by
  simp [tokens]
theorem tokens_cons_of_ne {b : Byte} (h : b ≠ COMMA) (p : List Byte) :
    tokens (b :: p) = consFirst b (tokens p) := by
  simp [tokens, h]

/-- There is always a first token (R151). -/
theorem tokens_ne_nil (p : List Byte) : tokens p ≠ [] := by
  cases p with
  | nil => simp
  | cons b p =>
    simp only [tokens]
    split
    · simp
    · cases tokens p <;> simp

@[simp] theorem wordState_faWord (st : FaState) (b : Byte) : wordState (faWord st b) = st := by
  revert b; cases st <;> decide

@[simp] theorem wordByte_faWord (st : FaState) (b : Byte) : wordByte (faWord st b) = b := by
  revert b; cases st <;> decide

/-- Every word is the word of its two fields (R72). -/
theorem faWord_fields (w : BitVec 9) : faWord (wordState w) (wordByte w) = w := by
  revert w; decide

/-- The assembler decoder selects one of the six assembler operations (R73), for the byte it was
given, under the conditions of its row. -/
theorem decodeFa_cases (c : Config) (st : FaState) (cur : Nat) (b : Byte) :
    (st = .wait ∧ b = LB ∧ decodeFa c st cur b = .faStart) ∨
    (st = .wait ∧ b ≠ LB ∧ decodeFa c st cur b = .faNoise b) ∨
    (st = .collect ∧ b = RB ∧ decodeFa c st cur b = .faEnd) ∨
    (st = .collect ∧ b = LB ∧ c.lbracketPolicy = .restart ∧ decodeFa c st cur b = .faRestart) ∨
    (st = .collect ∧ b ≠ RB ∧ ¬ (b = LB ∧ c.lbracketPolicy = .restart) ∧ cur < c.faCap - 1 ∧
      decodeFa c st cur b = .faData b) ∨
    (st = .collect ∧ b ≠ RB ∧ ¬ (b = LB ∧ c.lbracketPolicy = .restart) ∧ ¬ cur < c.faCap - 1 ∧
      decodeFa c st cur b = .faOverflow b) := by
  cases st with
  | wait => by_cases h : b = LB <;> simp [decodeFa, h]
  | collect =>
    by_cases h1 : b = RB
    · simp [decodeFa, h1]
    · by_cases h2 : b = LB ∧ c.lbracketPolicy = .restart
      · obtain ⟨rfl, h2⟩ := h2
        simp [decodeFa, h1, h2]
      · by_cases h3 : cur < c.faCap - 1
        · simp only [decodeFa, h1, h2, h3, if_false, if_true]; simp [h1]
        · simp only [decodeFa, h1, h2, h3, if_false]; simp [h1]

/-- The look-up finds a keyword only under its own bytes, and `STATUS` only when enabled (R154). -/
theorem keywordOf_eq_some {c : Config} {t : Token} {k : Keyword} (h : keywordOf c t = some k) :
    t = k.bytes ∧ k.present c = true := by
  simp only [keywordOf] at h
  split at h
  · cases h; exact ⟨‹_›, rfl⟩
  · split at h
    · cases h; exact ⟨‹_›, rfl⟩
    · split at h
      · cases h; rename_i h3; exact ⟨h3.2, h3.1⟩
      · cases h

/-- A keyword that is in the table is found under its bytes (R154). -/
theorem keywordOf_bytes {c : Config} {k : Keyword} (h : k.present c = true) :
    keywordOf c k.bytes = some k := by
  cases k with
  | pid => rfl
  | led => rfl
  | status =>
    have h' : c.statusEnabled = true := h
    simp [keywordOf, Keyword.bytes, h']

/-- The dispatcher's decoder selects one of the seven dispatcher operations (R155), under the
conditions of its check. -/
theorem decodeTokens_cases (c : Config) (ts : List Token) (hts : ts ≠ []) :
    (∃ p i d, ts = [Keyword.pid.bytes, p, i, d] ∧ decodeTokens c ts = .cmdPid p i d) ∨
    (ts = [Keyword.led.bytes, tokenOn] ∧ decodeTokens c ts = .cmdLedOn) ∨
    (ts = [Keyword.led.bytes, tokenOff] ∧ decodeTokens c ts = .cmdLedOff) ∨
    (∃ a, a ≠ tokenOn ∧ a ≠ tokenOff ∧ ts = [Keyword.led.bytes, a] ∧
      decodeTokens c ts = .cmdLedBadarg a) ∨
    (c.statusEnabled = true ∧ ts = [Keyword.status.bytes] ∧ decodeTokens c ts = .cmdStatus) ∨
    (∃ k args, k.present c = true ∧ args.length ≠ k.argc ∧ ts = k.bytes :: args ∧
      decodeTokens c ts = .cmdArgcMismatch k args) ∨
    (∃ kw args, keywordOf c kw = none ∧ ts = kw :: args ∧
      decodeTokens c ts = .cmdUnknown kw args) := by
  obtain ⟨kw, args, rfl⟩ := List.exists_cons_of_ne_nil hts
  rcases hk : keywordOf c kw with _ | k
  · exact .inr (.inr (.inr (.inr (.inr (.inr ⟨kw, args, hk, rfl, by simp [decodeTokens, hk]⟩)))))
  obtain ⟨rfl, hp⟩ := keywordOf_eq_some hk
  by_cases hn : args.length = k.argc
  · cases k with
    | pid =>
      obtain ⟨p, i, d, rfl⟩ := List.length_eq_three.1 hn
      exact .inl ⟨p, i, d, rfl, by simp [decodeTokens, hk, Keyword.argc]⟩
    | led =>
      obtain ⟨a, rfl⟩ := List.length_eq_one_iff.1 hn
      by_cases h1 : a = tokenOn
      · exact .inr (.inl ⟨by rw [h1], by simp [decodeTokens, hk, h1, Keyword.argc]⟩)
      · by_cases h2 : a = tokenOff
        · refine .inr (.inr (.inl ⟨by rw [h2], ?_⟩))
          simp [decodeTokens, hk, h2, Keyword.argc, tokenOn, tokenOff]
        · exact .inr (.inr (.inr (.inl ⟨a, h1, h2, rfl,
            by simp [decodeTokens, hk, h1, h2, Keyword.argc]⟩)))
    | status =>
      obtain rfl := List.length_eq_zero_iff.1 hn
      exact .inr (.inr (.inr (.inr (.inl ⟨hp, rfl, by simp [decodeTokens, hk, Keyword.argc]⟩))))
  · exact .inr (.inr (.inr (.inr (.inr (.inl ⟨k, args, hp, hn, rfl,
      by simp [decodeTokens, hk, hn]⟩)))))

/-- The operation selected has the tokens that selected it. -/
theorem tokens_decodeTokens (c : Config) (ts : List Token) (hts : ts ≠ []) :
    (decodeTokens c ts).tokens = ts := by
  rcases decodeTokens_cases c ts hts with ⟨_, _, _, h, e⟩ | ⟨h, e⟩ | ⟨h, e⟩ | ⟨_, _, _, h, e⟩ |
    ⟨_, h, e⟩ | ⟨_, _, _, _, h, e⟩ | ⟨_, _, _, h, e⟩ <;> rw [e, h] <;> rfl

end Sys2Proof
end

