-- ==== Sys2Proof/Laws/Memory.lean ====
section
/-! SUPPORT. The laws of byte arrays: a read after a write, the canonical form, the bounds. -/

namespace Sys2Proof.Machine

@[simp] theorem Memory.read_nil (a : Nat) : Memory.read [] a = none := rfl

@[simp] theorem Memory.read_write_same (m : Memory) (a : Nat) (b : Byte) :
    (m.write a b).read a = some b := by
  induction m with
  | nil => simp [Memory.write, Memory.read]
  | cons x m ih =>
    obtain ⟨k, v⟩ := x
    simp only [Memory.write]
    split
    · simp [Memory.read]
    · split
      · simp [Memory.read]
      · rename_i h1 h2
        simp [Memory.read, Ne.symm h2, ih]

theorem Memory.read_write_ne (m : Memory) {a a' : Nat} (b : Byte) (h : a' ≠ a) :
    (m.write a b).read a' = m.read a' := by
  induction m with
  | nil => simp [Memory.write, Memory.read, h.symm]
  | cons x m ih =>
    obtain ⟨k, v⟩ := x
    simp only [Memory.write]
    split
    · simp [Memory.read, h.symm]
    · split
      · rename_i h1 h2
        subst h2
        simp [Memory.read, h.symm]
      · simp [Memory.read, ih]

/-- A write never takes a byte away. -/
theorem Memory.isSome_read_write (m : Memory) (a a' : Nat) (b : Byte)
    (h : (m.read a').isSome = true) : ((m.write a b).read a').isSome = true := by
  by_cases e : a' = a
  · subst e; simp
  · rw [Memory.read_write_ne m b e]; exact h

/-- The entries of an array after a write are the new one and old ones. -/
theorem Memory.mem_write {m : Memory} {a : Nat} {b : Byte} {e : Host.Cell}
    (h : e ∈ m.write a b) : e = (a, b) ∨ e ∈ m := by
  induction m with
  | nil => simpa [Memory.write] using h
  | cons x m ih =>
    obtain ⟨k, v⟩ := x
    simp only [Memory.write] at h
    split at h
    · simpa using h
    · split at h
      · rcases List.mem_cons.1 h with h | h
        · exact .inl h
        · exact .inr (List.mem_cons_of_mem _ h)
      · rcases List.mem_cons.1 h with h | h
        · exact .inr (h ▸ List.mem_cons_self)
        · exact (ih h).imp_right (List.mem_cons_of_mem _)

/-- The canonical form says that the head's index is below all others. -/
theorem Memory.wf_cons_iff (x : Host.Cell) (m : Memory) :
    Memory.wf (x :: m) = true ↔ (∀ e ∈ m, x.1 < e.1) ∧ Memory.wf m = true := by
  induction m generalizing x with
  | nil => simp [Memory.wf]
  | cons y m ih =>
    simp only [Memory.wf, Bool.and_eq_true, decide_eq_true_eq, List.mem_cons, forall_eq_or_imp]
    constructor
    · rintro ⟨hxy, hw⟩
      exact ⟨⟨hxy, fun e he => hxy.trans (((ih y).1 hw).1 e he)⟩, hw⟩
    · rintro ⟨⟨hxy, -⟩, hw⟩
      exact ⟨hxy, hw⟩

/-- A write keeps the canonical form. -/
theorem Memory.wf_write {m : Memory} (a : Nat) (b : Byte) (h : m.wf = true) :
    (m.write a b).wf = true := by
  induction m with
  | nil => rfl
  | cons x m ih =>
    obtain ⟨k, v⟩ := x
    obtain ⟨hlow, hw⟩ := (Memory.wf_cons_iff _ _).1 h
    simp only [Memory.write]
    split
    · rename_i hlt
      refine (Memory.wf_cons_iff _ _).2 ⟨fun e he => ?_, h⟩
      rcases List.mem_cons.1 he with rfl | he
      · exact hlt
      · exact hlt.trans (hlow e he)
    · split
      · rename_i h1 h2
        subst h2
        exact (Memory.wf_cons_iff _ _).2 ⟨hlow, hw⟩
      · rename_i h1 h2
        refine (Memory.wf_cons_iff _ _).2 ⟨fun e he => ?_, ih hw⟩
        rcases Memory.mem_write he with rfl | he
        · exact Nat.lt_of_le_of_ne (Nat.le_of_not_lt h1) (Ne.symm h2)
        · exact hlow e he

theorem Memory.mem_zerosFrom {i n : Nat} {e : Host.Cell} (h : e ∈ Memory.zerosFrom i n) :
    i ≤ e.1 ∧ e.1 < i + n := by
  induction n generalizing i with
  | zero => simp [Memory.zerosFrom] at h
  | succ n ih =>
    rcases List.mem_cons.1 h with rfl | h
    · simp
    · have := ih h; omega

/-- A cleared array is in canonical form. -/
theorem Memory.wf_zerosFrom (i n : Nat) : (Memory.zerosFrom i n).wf = true := by
  induction n generalizing i with
  | zero => rfl
  | succ n ih =>
    refine (Memory.wf_cons_iff _ _).2 ⟨fun e he => ?_, ih (i + 1)⟩
    have := (Memory.mem_zerosFrom he).1
    simpa using this

theorem Memory.read_zerosFrom {i n a : Nat} (h1 : i ≤ a) (h2 : a < i + n) :
    (Memory.zerosFrom i n).read a = some NUL := by
  induction n generalizing i with
  | zero => omega
  | succ n ih =>
    simp only [Memory.zerosFrom, Memory.read]
    split
    · rfl
    · exact ih (by omega) (by omega)

/-- Storing bytes one after another keeps the canonical form. -/
theorem Memory.wf_writeAll {m : Memory} (i : Nat) (p : List Byte) (h : m.wf = true) :
    (m.writeAll i p).wf = true := by
  induction p generalizing m i with
  | nil => exact h
  | cons b p ih => exact ih _ (Memory.wf_write i b h)

end Sys2Proof.Machine
end

