-- ==== Sys2Proof/Laws/State.lean ====
section
/-! SUPPORT. One lemma per field for each update of the state, so that no proof unfolds an update. -/

namespace Sys2Proof.Machine

/-! ### emit -/

@[simp] theorem State.emit_cfg (s : State) (e : Event) :
    (s.emit e).cfg = s.cfg := rfl
@[simp] theorem State.emit_chBuf (s : State) (e : Event) :
    (s.emit e).chBuf = s.chBuf := rfl
@[simp] theorem State.emit_chRd (s : State) (e : Event) :
    (s.emit e).chRd = s.chRd := rfl
@[simp] theorem State.emit_chWr (s : State) (e : Event) :
    (s.emit e).chWr = s.chWr := rfl
@[simp] theorem State.emit_chCnt (s : State) (e : Event) :
    (s.emit e).chCnt = s.chCnt := rfl
@[simp] theorem State.emit_dropCnt (s : State) (e : Event) :
    (s.emit e).dropCnt = s.dropCnt := rfl
@[simp] theorem State.emit_faState (s : State) (e : Event) :
    (s.emit e).faState = s.faState := rfl
@[simp] theorem State.emit_faCur (s : State) (e : Event) :
    (s.emit e).faCur = s.faCur := rfl
@[simp] theorem State.emit_faBuf (s : State) (e : Event) :
    (s.emit e).faBuf = s.faBuf := rfl
@[simp] theorem State.emit_ovfCnt (s : State) (e : Event) :
    (s.emit e).ovfCnt = s.ovfCnt := rfl
@[simp] theorem State.emit_gain (s : State) (e : Event) :
    (s.emit e).gain = s.gain := rfl
@[simp] theorem State.emit_led (s : State) (e : Event) :
    (s.emit e).led = s.led := rfl
@[simp] theorem State.emit_diagPend (s : State) (e : Event) :
    (s.emit e).diagPend = s.diagPend := rfl
@[simp] theorem State.emit_trace (s : State) (e : Event) :
    (s.emit e).trace = s.trace ++ [e] := rfl
@[simp] theorem State.emit_draws (s : State) (e : Event) :
    (s.emit e).draws = s.draws := rfl
@[simp] theorem State.emit_schedule (s : State) (e : Event) :
    (s.emit e).schedule = s.schedule := rfl

/-! ### makeDiag -/

@[simp] theorem State.makeDiag_cfg (s : State) (code : BitVec 8) (d0 d1 d2 : Word32) :
    (s.makeDiag code d0 d1 d2).cfg = s.cfg := rfl
@[simp] theorem State.makeDiag_chBuf (s : State) (code : BitVec 8) (d0 d1 d2 : Word32) :
    (s.makeDiag code d0 d1 d2).chBuf = s.chBuf := rfl
@[simp] theorem State.makeDiag_chRd (s : State) (code : BitVec 8) (d0 d1 d2 : Word32) :
    (s.makeDiag code d0 d1 d2).chRd = s.chRd := rfl
@[simp] theorem State.makeDiag_chWr (s : State) (code : BitVec 8) (d0 d1 d2 : Word32) :
    (s.makeDiag code d0 d1 d2).chWr = s.chWr := rfl
@[simp] theorem State.makeDiag_chCnt (s : State) (code : BitVec 8) (d0 d1 d2 : Word32) :
    (s.makeDiag code d0 d1 d2).chCnt = s.chCnt := rfl
@[simp] theorem State.makeDiag_dropCnt (s : State) (code : BitVec 8) (d0 d1 d2 : Word32) :
    (s.makeDiag code d0 d1 d2).dropCnt = s.dropCnt := rfl
@[simp] theorem State.makeDiag_faState (s : State) (code : BitVec 8) (d0 d1 d2 : Word32) :
    (s.makeDiag code d0 d1 d2).faState = s.faState := rfl
@[simp] theorem State.makeDiag_faCur (s : State) (code : BitVec 8) (d0 d1 d2 : Word32) :
    (s.makeDiag code d0 d1 d2).faCur = s.faCur := rfl
@[simp] theorem State.makeDiag_faBuf (s : State) (code : BitVec 8) (d0 d1 d2 : Word32) :
    (s.makeDiag code d0 d1 d2).faBuf = s.faBuf := rfl
@[simp] theorem State.makeDiag_ovfCnt (s : State) (code : BitVec 8) (d0 d1 d2 : Word32) :
    (s.makeDiag code d0 d1 d2).ovfCnt = s.ovfCnt := rfl
@[simp] theorem State.makeDiag_gain (s : State) (code : BitVec 8) (d0 d1 d2 : Word32) :
    (s.makeDiag code d0 d1 d2).gain = s.gain := rfl
@[simp] theorem State.makeDiag_led (s : State) (code : BitVec 8) (d0 d1 d2 : Word32) :
    (s.makeDiag code d0 d1 d2).led = s.led := rfl
@[simp] theorem State.makeDiag_diagPend (s : State) (code : BitVec 8) (d0 d1 d2 : Word32) :
    (s.makeDiag code d0 d1 d2).diagPend = ⟨true, code, d0, d1, d2⟩ := rfl
@[simp] theorem State.makeDiag_trace (s : State) (code : BitVec 8) (d0 d1 d2 : Word32) :
    (s.makeDiag code d0 d1 d2).trace = s.trace := rfl
@[simp] theorem State.makeDiag_draws (s : State) (code : BitVec 8) (d0 d1 d2 : Word32) :
    (s.makeDiag code d0 d1 d2).draws = s.draws := rfl
@[simp] theorem State.makeDiag_schedule (s : State) (code : BitVec 8) (d0 d1 d2 : Word32) :
    (s.makeDiag code d0 d1 d2).schedule = s.schedule := rfl

/-! ### clearFrame -/

@[simp] theorem State.clearFrame_cfg (s : State) :
    (s.clearFrame).cfg = s.cfg := rfl
@[simp] theorem State.clearFrame_chBuf (s : State) :
    (s.clearFrame).chBuf = s.chBuf := rfl
@[simp] theorem State.clearFrame_chRd (s : State) :
    (s.clearFrame).chRd = s.chRd := rfl
@[simp] theorem State.clearFrame_chWr (s : State) :
    (s.clearFrame).chWr = s.chWr := rfl
@[simp] theorem State.clearFrame_chCnt (s : State) :
    (s.clearFrame).chCnt = s.chCnt := rfl
@[simp] theorem State.clearFrame_dropCnt (s : State) :
    (s.clearFrame).dropCnt = s.dropCnt := rfl
@[simp] theorem State.clearFrame_faState (s : State) :
    (s.clearFrame).faState = .collect := rfl
@[simp] theorem State.clearFrame_faCur (s : State) :
    (s.clearFrame).faCur = 0 := rfl
@[simp] theorem State.clearFrame_faBuf (s : State) :
    (s.clearFrame).faBuf = Memory.zerosFrom 0 s.cfg.faCap := rfl
@[simp] theorem State.clearFrame_ovfCnt (s : State) :
    (s.clearFrame).ovfCnt = s.ovfCnt := rfl
@[simp] theorem State.clearFrame_gain (s : State) :
    (s.clearFrame).gain = s.gain := rfl
@[simp] theorem State.clearFrame_led (s : State) :
    (s.clearFrame).led = s.led := rfl
@[simp] theorem State.clearFrame_diagPend (s : State) :
    (s.clearFrame).diagPend = s.diagPend := rfl
@[simp] theorem State.clearFrame_trace (s : State) :
    (s.clearFrame).trace = s.trace := rfl
@[simp] theorem State.clearFrame_draws (s : State) :
    (s.clearFrame).draws = s.draws := rfl
@[simp] theorem State.clearFrame_schedule (s : State) :
    (s.clearFrame).schedule = s.schedule := rfl

/-! ### leaveFrame -/

@[simp] theorem State.leaveFrame_cfg (s : State) :
    (s.leaveFrame).cfg = s.cfg := rfl
@[simp] theorem State.leaveFrame_chBuf (s : State) :
    (s.leaveFrame).chBuf = s.chBuf := rfl
@[simp] theorem State.leaveFrame_chRd (s : State) :
    (s.leaveFrame).chRd = s.chRd := rfl
@[simp] theorem State.leaveFrame_chWr (s : State) :
    (s.leaveFrame).chWr = s.chWr := rfl
@[simp] theorem State.leaveFrame_chCnt (s : State) :
    (s.leaveFrame).chCnt = s.chCnt := rfl
@[simp] theorem State.leaveFrame_dropCnt (s : State) :
    (s.leaveFrame).dropCnt = s.dropCnt := rfl
@[simp] theorem State.leaveFrame_faState (s : State) :
    (s.leaveFrame).faState = .wait := rfl
@[simp] theorem State.leaveFrame_faCur (s : State) :
    (s.leaveFrame).faCur = 0 := rfl
@[simp] theorem State.leaveFrame_faBuf (s : State) :
    (s.leaveFrame).faBuf = s.faBuf := rfl
@[simp] theorem State.leaveFrame_ovfCnt (s : State) :
    (s.leaveFrame).ovfCnt = s.ovfCnt := rfl
@[simp] theorem State.leaveFrame_gain (s : State) :
    (s.leaveFrame).gain = s.gain := rfl
@[simp] theorem State.leaveFrame_led (s : State) :
    (s.leaveFrame).led = s.led := rfl
@[simp] theorem State.leaveFrame_diagPend (s : State) :
    (s.leaveFrame).diagPend = s.diagPend := rfl
@[simp] theorem State.leaveFrame_trace (s : State) :
    (s.leaveFrame).trace = s.trace := rfl
@[simp] theorem State.leaveFrame_draws (s : State) :
    (s.leaveFrame).draws = s.draws := rfl
@[simp] theorem State.leaveFrame_schedule (s : State) :
    (s.leaveFrame).schedule = s.schedule := rfl

/-! ### applyReset -/

@[simp] theorem State.applyReset_cfg (s : State) :
    (s.applyReset).cfg = s.cfg := rfl
@[simp] theorem State.applyReset_chBuf (s : State) :
    (s.applyReset).chBuf = [] := rfl
@[simp] theorem State.applyReset_chRd (s : State) :
    (s.applyReset).chRd = 0 := rfl
@[simp] theorem State.applyReset_chWr (s : State) :
    (s.applyReset).chWr = 0 := rfl
@[simp] theorem State.applyReset_chCnt (s : State) :
    (s.applyReset).chCnt = 0 := rfl
@[simp] theorem State.applyReset_dropCnt (s : State) :
    (s.applyReset).dropCnt = 0 := rfl
@[simp] theorem State.applyReset_faState (s : State) :
    (s.applyReset).faState = .wait := rfl
@[simp] theorem State.applyReset_faCur (s : State) :
    (s.applyReset).faCur = 0 := rfl
@[simp] theorem State.applyReset_faBuf (s : State) :
    (s.applyReset).faBuf = [] := rfl
@[simp] theorem State.applyReset_ovfCnt (s : State) :
    (s.applyReset).ovfCnt = 0 := rfl
@[simp] theorem State.applyReset_gain (s : State) :
    (s.applyReset).gain = s.cfg.gainReset := rfl
@[simp] theorem State.applyReset_led (s : State) :
    (s.applyReset).led = s.cfg.ledReset := rfl
@[simp] theorem State.applyReset_diagPend (s : State) :
    (s.applyReset).diagPend = ⟨false, 0, 0, 0, 0⟩ := rfl
@[simp] theorem State.applyReset_trace (s : State) :
    (s.applyReset).trace = s.trace := rfl
@[simp] theorem State.applyReset_draws (s : State) :
    (s.applyReset).draws = s.draws := rfl
@[simp] theorem State.applyReset_schedule (s : State) :
    (s.applyReset).schedule = s.schedule := rfl

/-! ### The start state -/

@[simp] theorem State.ofConfig_cfg (c : Config) : (State.ofConfig c).cfg = c := rfl
@[simp] theorem State.ofConfig_chBuf (c : Config) : (State.ofConfig c).chBuf = [] := rfl
@[simp] theorem State.ofConfig_chRd (c : Config) : (State.ofConfig c).chRd = 0 := rfl
@[simp] theorem State.ofConfig_chWr (c : Config) : (State.ofConfig c).chWr = 0 := rfl
@[simp] theorem State.ofConfig_chCnt (c : Config) : (State.ofConfig c).chCnt = 0 := rfl
@[simp] theorem State.ofConfig_dropCnt (c : Config) : (State.ofConfig c).dropCnt = 0 := rfl
@[simp] theorem State.ofConfig_faState (c : Config) : (State.ofConfig c).faState = .wait := rfl
@[simp] theorem State.ofConfig_faCur (c : Config) : (State.ofConfig c).faCur = 0 := rfl
@[simp] theorem State.ofConfig_faBuf (c : Config) : (State.ofConfig c).faBuf = [] := rfl
@[simp] theorem State.ofConfig_ovfCnt (c : Config) : (State.ofConfig c).ovfCnt = 0 := rfl
@[simp] theorem State.ofConfig_gain (c : Config) : (State.ofConfig c).gain = c.gainReset := rfl
@[simp] theorem State.ofConfig_led (c : Config) : (State.ofConfig c).led = c.ledReset := rfl
@[simp] theorem State.ofConfig_diagPend (c : Config) : (State.ofConfig c).diagPend = ⟨false, 0, 0, 0, 0⟩ := rfl
@[simp] theorem State.ofConfig_trace (c : Config) : (State.ofConfig c).trace = [] := rfl
@[simp] theorem State.ofConfig_draws (c : Config) : (State.ofConfig c).draws = 0 := rfl
@[simp] theorem State.ofConfig_schedule (c : Config) : (State.ofConfig c).schedule = [] := rfl

end Sys2Proof.Machine
end

