-- ==== Sys2Proof/Laws/Ops.lean ====
section
/-! SUPPORT. One lemma per shared operation: everything it can answer. -/

namespace Sys2Proof.Machine

/-! ### Array accesses -/

theorem State.readCh_ok {s : State} {i : Nat} {b : Byte} :
    s.readCh i = .ok b ↔ i < s.cfg.chCap ∧ s.chBuf.read i = some b := by
  unfold State.readCh
  split
  · cases s.chBuf.read i <;> simp [*]
  · simp [*]

theorem State.readFa_ok {s : State} {i : Nat} {b : Byte} :
    s.readFa i = .ok b ↔ i < s.cfg.faCap ∧ s.faBuf.read i = some b := by
  unfold State.readFa
  split
  · cases s.faBuf.read i <;> simp [*]
  · simp [*]

theorem State.writeCh_ok {s t : State} {i : Nat} {b : Byte} :
    s.writeCh i b = .ok t ↔ i < s.cfg.chCap ∧ t = { s with chBuf := s.chBuf.write i b } := by
  unfold State.writeCh
  split <;> simp [*, eq_comm]

theorem State.writeFa_ok {s t : State} {i : Nat} {b : Byte} :
    s.writeFa i b = .ok t ↔ i < s.cfg.faCap ∧ t = { s with faBuf := s.faBuf.write i b } := by
  unfold State.writeFa
  split <;> simp [*, eq_comm]

/-! ### The channel -/

/-- The state after storing an accepted byte. -/
theorem State.enqueue_ok {s t : State} {b : Byte} :
    s.enqueue b = .ok t ↔ s.chWr < s.cfg.chCap ∧
      t = { s with
        chBuf := s.chBuf.write s.chWr b
        chWr := (s.chWr + 1) % s.cfg.chCap
        chCnt := s.chCnt + 1 } := by
  unfold State.enqueue
  rcases h : s.writeCh s.chWr b with f | u
  · simp only [reduceCtorEq, false_iff]
    rintro ⟨h1, -⟩
    have := (State.writeCh_ok (s := s) (b := b)).2 ⟨h1, rfl⟩
    rw [h] at this; cases this
  · obtain ⟨h1, rfl⟩ := State.writeCh_ok.1 h
    simp [h1, eq_comm]

/-- The oldest byte and the state after taking it. -/
theorem State.dequeue_ok {s t : State} {b : Byte} :
    s.dequeue = .ok (b, t) ↔ s.chRd < s.cfg.chCap ∧ s.chBuf.read s.chRd = some b ∧
      t = { s with chRd := (s.chRd + 1) % s.cfg.chCap, chCnt := s.chCnt - 1 } := by
  unfold State.dequeue
  rcases h : s.readCh s.chRd with f | c
  · simp only [reduceCtorEq, false_iff]
    rintro ⟨h1, h2, -⟩
    rw [State.readCh_ok.2 ⟨h1, h2⟩] at h; cases h
  · obtain ⟨h1, h2⟩ := State.readCh_ok.1 h
    simp only [Except.ok.injEq, Prod.mk.injEq, h1, h2, Option.some.injEq, true_and, eq_comm]

/-! ### The payload -/

/-- A scan of written bytes gives them up to the first 0x00. -/
theorem State.scanFa_written {s : State} {f : Nat → Byte} {i k : Nat}
    (h : ∀ j, i ≤ j → j < i + k → j < s.cfg.faCap ∧ s.faBuf.read j = some (f j)) :
    s.scanFa i k = .ok (((List.range' i k).map f).takeWhile (· ≠ NUL)) := by
  induction k generalizing i with
  | zero => simp [State.scanFa]
  | succ k ih =>
    have h0 := State.readFa_ok.2 (h i (Nat.le_refl i) (by omega))
    simp only [State.scanFa, h0, List.range'_succ, List.map_cons]
    by_cases hb : f i = NUL
    · simp [hb]
    · rw [ih (fun j h1 h2 => h j (by omega) (by omega))]
      simp [hb]

/-- A final 0x00 does not change the bytes up to the first 0x00. -/
theorem takeWhile_append_nul (l : List Byte) :
    (l ++ [NUL]).takeWhile (· ≠ NUL) = l.takeWhile (· ≠ NUL) := by
  induction l with
  | nil => simp
  | cons b l ih => by_cases h : b = NUL <;> simp_all

/-- `PAYLOAD()` after FA_END's terminator is the collected bytes up to the first 0x00 (R128). -/
theorem State.payload_terminated {s : State} (hcur : s.faCur < s.cfg.faCap)
    (hw : ∀ j < s.faCur, (s.faBuf.read j).isSome = true) :
    ({ s with faBuf := s.faBuf.write s.faCur NUL } : State).payload =
      .ok (s.collected.takeWhile (· ≠ NUL)) := by
  have := State.scanFa_written (s := { s with faBuf := s.faBuf.write s.faCur NUL })
    (f := fun j => if j = s.faCur then NUL else (s.faBuf.read j).getD NUL) (i := 0) (k := s.faCur + 1)
    (fun j _ hj => ⟨by show j < s.cfg.faCap; omega, by
      by_cases e : j = s.faCur
      · subst e; simp
      · have hs := hw j (by omega)
        rw [if_neg e, Memory.read_write_ne _ _ e]
        obtain ⟨v, hv⟩ := Option.isSome_iff_exists.1 hs
        simp [hv]⟩)
  refine this.trans (congrArg Except.ok ?_)
  rw [List.range'_1_concat, List.map_append, ← List.range_eq_range']
  simp only [Nat.zero_add, List.map_cons, List.map_nil, if_true, takeWhile_append_nul]
  unfold State.collected
  congr 1
  refine List.map_congr_left fun j hj => ?_
  rw [if_neg (Nat.ne_of_lt (List.mem_range.1 hj))]

/-! ### Selection -/

/-- A selected assembler operation is performed. -/
theorem performFa_selected {s : State} {b : Byte} {i : Instr}
    {act : State → Host.Outcome State Fault Refusal} (hv : s.diagPend.valid = false)
    (h : decodeFa s.cfg s.faState s.faCur b = i) : performFa b i s act = act s := by
  simp [performFa, State.selectsFa, hv, h]

/-- Any other assembler operation changes nothing. -/
theorem performFa_unselected {s : State} {b : Byte} {i : Instr}
    {act : State → Host.Outcome State Fault Refusal}
    (h : s.diagPend.valid = true ∨ decodeFa s.cfg s.faState s.faCur b ≠ i) :
    performFa b i s act = .next s := by
  rcases h with h | h <;> simp [performFa, State.selectsFa, h]

/-- Whether it is selected or not, an assembler operation answers one of these. -/
theorem performFa_cases (s : State) (b : Byte) (i : Instr)
    (act : State → Host.Outcome State Fault Refusal) :
    performFa b i s act = .next s ∨
      (s.diagPend.valid = false ∧ decodeFa s.cfg s.faState s.faCur b = i ∧
        performFa b i s act = act s) := by
  by_cases h : s.diagPend.valid = false ∧ decodeFa s.cfg s.faState s.faCur b = i
  · exact .inr ⟨h.1, h.2, performFa_selected h.1 h.2⟩
  · refine .inl (performFa_unselected ?_)
    rcases hv : s.diagPend.valid with _ | _
    · exact .inr fun e => h ⟨hv, e⟩
    · exact .inl rfl

/-- A selected dispatcher operation is performed. -/
theorem performCmd_selected {s : State} {i : Instr} {act : State → State}
    (hv : s.diagPend.valid = false) (h : decodeTokens s.cfg i.tokens = i) :
    performCmd i s act = .next (act s) := by
  simp [performCmd, State.selectsCmd, hv, h]

/-- Any other dispatcher operation changes nothing. -/
theorem performCmd_unselected {s : State} {i : Instr} {act : State → State}
    (h : s.diagPend.valid = true ∨ decodeTokens s.cfg i.tokens ≠ i) :
    performCmd i s act = .next s := by
  rcases h with h | h <;> simp [performCmd, State.selectsCmd, h]

/-! ### The configuration check -/

/-- What an admitted configuration meets (R6, R7, R18, R152, R208). -/
theorem configRefusal_none {c : Config} : configRefusal c = none ↔
    c.producers = 1 ∧ 0 < c.chCap ∧ 0 < c.faCap ∧ numConvLawful c = true := by
  unfold configRefusal
  by_cases h1 : c.producers = 1 <;> by_cases h2 : c.chCap = 0 <;> by_cases h3 : c.faCap = 0 <;>
    rcases h4 : numConvLawful c with _ | _ <;> simp [h1, h2, h3, Nat.pos_iff_ne_zero]

/-- The status view has a value exactly for the numbers 0x00 to 0x0D (R37, R213). -/
theorem State.view_isSome (s : State) (r : Nat) : (s.view r).isSome = true ↔ r ≤ 0x0D := by
  by_cases hr : r ≤ 0x0D
  · simp only [hr, iff_true]
    interval_cases r <;> rfl
  · obtain ⟨k, rfl⟩ : ∃ k, r = k + 14 := ⟨r - 14, by omega⟩
    simp [State.view]

/-- A valid diagnostic is read as it stands, without a draw (R37). -/
theorem State.view_pending {s : State} (h : s.diagPend.valid = true) :
    s.view 0x0A = some (s.diagPend.code.setWidth 32, 0) ∧ s.view 0x0B = some (s.diagPend.d0, 0) ∧
      s.view 0x0C = some (s.diagPend.d1, 0) ∧ s.view 0x0D = some (s.diagPend.d2, 0) := by
  simp [State.view, h]
end Sys2Proof.Machine
end

