-- ==== Sys2Proof/Laws/Dispatcher.lean ====
section
/-! SUPPORT. The one lemma about a dispatch: what it leaves, in the terms of `dispatchEffect`. -/

namespace Sys2Proof.Machine

/-- The table look-up on bytes and the look-up of a keyword agree (R154). -/
theorem keywordTable_lookup (c : Config) (t : Token) :
    (keywordTable c).lookup t = (keywordOf c t).map Keyword.argc := by
  have h : ∀ l : List (Token × Nat), ∀ x n, List.lookup t ((x, n) :: l) =
      if t = x then some n else List.lookup t l := by
    intro l x n
    by_cases e : t = x
    · simp [List.lookup, e]
    · rw [List.lookup, beq_false_of_ne e, if_neg e]
  unfold keywordTable keywordOf
  rw [List.cons_append, h, List.cons_append, h]
  by_cases h1 : t = Keyword.pid.bytes
  · simp [h1, Keyword.bytes, Keyword.argc]
  · by_cases h2 : t = Keyword.led.bytes
    · simp [h2, Keyword.bytes, Keyword.argc]
    · have h1' : t ≠ [0x50#8, 0x49#8, 0x44#8] := h1
      have h2' : t ≠ [0x4C#8, 0x45#8, 0x44#8] := h2
      rw [if_neg h1', if_neg h2', if_neg h1, if_neg h2, List.nil_append]
      cases c.statusEnabled
      · simp
      · simp only [if_true, h]
        by_cases h3 : t = Keyword.status.bytes
        · simp [h3, Keyword.bytes, Keyword.argc]
        · have h3' : t ≠ [0x53#8, 0x54#8, 0x41#8, 0x54#8, 0x55#8, 0x53#8] := h3
          rw [if_neg h3']; simp [h3]

/-- The effect of the operation that the tokens select. -/
theorem execCmd_decodeTokens {s : State} {ts : List Token} (hts : ts ≠ [])
    (hv : s.diagPend.valid = false) {p : List Byte} (hp : tokens p = ts) :
    execCmd (decodeTokens s.cfg ts) s =
      .next { s with
        gain := (dispatchEffect s.cfg s.dropCnt s.ovfCnt s.gain s.led p).1
        led := (dispatchEffect s.cfg s.dropCnt s.ovfCnt s.gain s.led p).2.1
        diagPend := (dispatchEffect s.cfg s.dropCnt s.ovfCnt s.gain s.led p).2.2 } := by
  have sel : decodeTokens s.cfg (decodeTokens s.cfg ts).tokens = decodeTokens s.cfg ts := by
    rw [tokens_decodeTokens s.cfg ts hts]
  rcases decodeTokens_cases s.cfg ts hts with ⟨x, y, z, h, e⟩ | ⟨h, e⟩ | ⟨h, e⟩ | ⟨a, h1, h2, h, e⟩ |
    ⟨hs, h, e⟩ | ⟨k, args, hk, hn, h, e⟩ | ⟨kw, args, hk, h, e⟩
  all_goals rw [e] at sel ⊢
  · rw [show execCmd (.cmdPid x y z) s = execCmdPid x y z s from rfl, execCmdPid,
      performCmd_selected hv sel]
    have hl := keywordTable_lookup s.cfg Keyword.pid.bytes
    rw [keywordOf_bytes rfl] at hl
    simp only [dispatchEffect, hp, h, List.headD_cons, hl]
    simp [Keyword.argc, Keyword.bytes, State.makeDiag, diagPidOk]
  · rw [show execCmd .cmdLedOn s = execCmdLedOn s from rfl, execCmdLedOn,
      performCmd_selected hv sel]
    have hl := keywordTable_lookup s.cfg Keyword.led.bytes
    rw [keywordOf_bytes rfl] at hl
    simp only [dispatchEffect, hp, h, List.headD_cons, hl]
    simp [Keyword.argc, Keyword.bytes, State.makeDiag, diagLedOk, tokenOn]
  · rw [show execCmd .cmdLedOff s = execCmdLedOff s from rfl, execCmdLedOff,
      performCmd_selected hv sel]
    have hl := keywordTable_lookup s.cfg Keyword.led.bytes
    rw [keywordOf_bytes rfl] at hl
    simp only [dispatchEffect, hp, h, List.headD_cons, hl]
    simp [Keyword.argc, Keyword.bytes, State.makeDiag, diagLedOk, tokenOff]
  · rw [show execCmd (.cmdLedBadarg a) s = execCmdLedBadarg a s from rfl, execCmdLedBadarg,
      performCmd_selected hv sel]
    have hl := keywordTable_lookup s.cfg Keyword.led.bytes
    rw [keywordOf_bytes rfl] at hl
    have h1' : a ≠ [0x4F#8, 0x4E#8] := h1
    have h2' : a ≠ [0x4F#8, 0x46#8, 0x46#8] := h2
    simp only [dispatchEffect, hp, h, List.headD_cons, hl]
    simp [Keyword.argc, Keyword.bytes, State.makeDiag, diagBadArg, h1', h2']
  · rw [show execCmd .cmdStatus s = execCmdStatus s from rfl, execCmdStatus,
      performCmd_selected hv sel]
    have hl := keywordTable_lookup s.cfg Keyword.status.bytes
    rw [keywordOf_bytes (k := .status) hs] at hl
    simp only [dispatchEffect, hp, h, List.headD_cons, hl]
    simp [Keyword.argc, Keyword.bytes, State.makeDiag, diagStatus]
  · rw [show execCmd (.cmdArgcMismatch k args) s = execCmdArgcMismatch k args s from rfl,
      execCmdArgcMismatch, performCmd_selected hv sel]
    have hl := keywordTable_lookup s.cfg k.bytes
    rw [keywordOf_bytes hk] at hl
    simp only [dispatchEffect, hp, h, List.headD_cons, hl]
    simp [State.makeDiag, diagMissingParams, hn]
  · rw [show execCmd (.cmdUnknown kw args) s = execCmdUnknown kw args s from rfl,
      execCmdUnknown, performCmd_selected hv sel]
    have hl := keywordTable_lookup s.cfg kw
    rw [hk] at hl
    simp only [dispatchEffect, hp, h, List.headD_cons, hl]
    simp [State.makeDiag, diagUnknownCmd]

/-- `DISPATCH(P)` (R150): one next state, in which only the gains, the LED and the diagnostic register
may differ. -/
theorem dispatch_eq {s : State} (p : List Byte) (hv : s.diagPend.valid = false) :
    dispatch p s = .next { s with
      gain := (dispatchEffect s.cfg s.dropCnt s.ovfCnt s.gain s.led p).1
      led := (dispatchEffect s.cfg s.dropCnt s.ovfCnt s.gain s.led p).2.1
      diagPend := (dispatchEffect s.cfg s.dropCnt s.ovfCnt s.gain s.led p).2.2 } :=
  execCmd_decodeTokens (tokens_ne_nil p) hv rfl

/-- What a dispatch can leave: the confirmation of CMD_PID with its three gains, a LED confirmation, or a
report with gains and LED as they were. -/
theorem dispatchEffect_cases (c : Config) (x y : Word32) (g : Gains) (l : Bool) (p : List Byte) :
    (∃ a b d, dispatchEffect c x y g l p =
      (⟨numConv c a, numConv c b, numConv c d⟩, l,
        ⟨true, diagPidOk, numConv c a, numConv c b, numConv c d⟩)) ∨
    (∃ v, dispatchEffect c x y g l p = (g, v, ⟨true, diagLedOk, bitWord v, 0, 0⟩)) ∨
    (∃ code d0 d1, code ∈ [diagStatus, diagMissingParams, diagUnknownCmd, diagBadArg] ∧
      dispatchEffect c x y g l p = (g, l, ⟨true, code, d0, d1, 0⟩)) := by
  unfold dispatchEffect
  simp only
  split
  · exact .inr (.inr ⟨0x11, 0, 0, by decide, rfl⟩)
  · split
    · exact .inr (.inr ⟨0x10, 0, 0, by decide, rfl⟩)
    · split
      · exact .inl ⟨_, _, _, rfl⟩
      · split
        · exact .inr (.inr ⟨0x03, x, y, by decide, rfl⟩)
        · split
          · exact .inr (.inl ⟨true, rfl⟩)
          · split
            · exact .inr (.inl ⟨false, rfl⟩)
            · exact .inr (.inr ⟨0x12, 0, 0, by decide, rfl⟩)

end Sys2Proof.Machine
end

