-- ==== Sys2Proof/Laws/Assembler.lean ====
section
/-! SUPPORT. What an assembler step and a CONSUMER step can answer. -/

namespace Sys2Proof.Machine

/-- The state that a frame end leaves: FA_END and its dispatch (R123, R150). -/
def State.afterFrameEnd (s : State) : State :=
  let e := dispatchEffect s.cfg s.dropCnt s.ovfCnt s.gain s.led (s.collected.takeWhile (· ≠ NUL))
  { s with
    faBuf := s.faBuf.write s.faCur NUL, faCur := 0, faState := .wait
    gain := e.1, led := e.2.1, diagPend := e.2.2 }

/-- FA_END on written bytes, as the dispatch it runs. -/
theorem execFaEnd_eq {s : State} (hs : s.faState = .collect) (hv : s.diagPend.valid = false)
    (hcur : s.faCur < s.cfg.faCap) (hw : ∀ j < s.faCur, (s.faBuf.read j).isSome = true) :
    execFaEnd s = dispatch (s.collected.takeWhile (· ≠ NUL))
      { s with faBuf := s.faBuf.write s.faCur NUL, faCur := 0, faState := .wait } := by
  unfold execFaEnd
  rw [performFa_selected hv (by simp [decodeFa, hs]), State.writeFa_ok.2 ⟨hcur, rfl⟩]
  simp only [State.payload_terminated hcur hw]
  rfl

theorem execFaEnd_next {s : State} (hs : s.faState = .collect) (hv : s.diagPend.valid = false)
    (hcur : s.faCur < s.cfg.faCap) (hw : ∀ j < s.faCur, (s.faBuf.read j).isSome = true) :
    execFaEnd s = .next s.afterFrameEnd := by
  rw [execFaEnd_eq hs hv hcur hw]
  exact dispatch_eq _ hv

/-- Everything an assembler step can do when it answers a next state (R73, R120 to R126). -/
theorem faStep_cases {s t : State} {b : Byte} (hv : s.diagPend.valid = false)
    (h : faStep b s = .next t) :
    (s.faState = .wait ∧ b = LB ∧ t = s.clearFrame) ∨
    (s.faState = .wait ∧ b ≠ LB ∧ t = s) ∨
    (s.faState = .collect ∧ b = RB ∧ s.faCur < s.cfg.faCap ∧
      ∃ p, ({ s with faBuf := s.faBuf.write s.faCur NUL } : State).payload = .ok p ∧
        t = { s with
          faBuf := s.faBuf.write s.faCur NUL, faCur := 0, faState := .wait
          gain := (dispatchEffect s.cfg s.dropCnt s.ovfCnt s.gain s.led p).1
          led := (dispatchEffect s.cfg s.dropCnt s.ovfCnt s.gain s.led p).2.1
          diagPend := (dispatchEffect s.cfg s.dropCnt s.ovfCnt s.gain s.led p).2.2 }) ∨
    (s.faState = .collect ∧ b = LB ∧ s.cfg.lbracketPolicy = .restart ∧ t = s.clearFrame) ∨
    (s.faState = .collect ∧ b ≠ RB ∧ ¬ (b = LB ∧ s.cfg.lbracketPolicy = .restart) ∧
      s.faCur < s.cfg.faCap - 1 ∧
      t = { s with faBuf := s.faBuf.write s.faCur b, faCur := s.faCur + 1 }) ∨
    (s.faState = .collect ∧ b ≠ RB ∧ ¬ (b = LB ∧ s.cfg.lbracketPolicy = .restart) ∧
      ¬ s.faCur < s.cfg.faCap - 1 ∧
      t = { s with
        ovfCnt := bump s.ovfCnt, faCur := 0, faState := .wait
        diagPend := ⟨true, diagOverflow, 0, 0, 0⟩ }) := by
  unfold faStep at h
  rcases decodeFa_cases s.cfg s.faState s.faCur b with ⟨h1, h2, e⟩ | ⟨h1, h2, e⟩ | ⟨h1, h2, e⟩ |
    ⟨h1, h2, h3, e⟩ | ⟨h1, h2, h3, h4, e⟩ | ⟨h1, h2, h3, h4, e⟩
  all_goals rw [e] at h
  · subst h2
    replace h : execFaStart s = .next t := h
    rw [execFaStart, performFa_selected hv e] at h
    cases h; exact .inl ⟨h1, rfl, rfl⟩
  · replace h : execFaNoise b s = .next t := h
    rw [execFaNoise, performFa_selected hv e] at h
    cases h; exact .inr (.inl ⟨h1, h2, rfl⟩)
  · subst h2
    replace h : execFaEnd s = .next t := h
    rw [execFaEnd, performFa_selected hv e] at h
    rcases hw : s.writeFa s.faCur NUL with f | u
    · simp [hw] at h
    · obtain ⟨hc, rfl⟩ := State.writeFa_ok.1 hw
      simp only [hw] at h
      split at h
      · cases h
      · rename_i p hp
        rw [dispatch_eq p (by exact hv)] at h
        cases h
        exact .inr (.inr (.inl ⟨h1, rfl, hc, p, hp, rfl⟩))
  · subst h2
    replace h : execFaRestart s = .next t := h
    rw [execFaRestart, performFa_selected hv e] at h
    cases h; exact .inr (.inr (.inr (.inl ⟨h1, rfl, h3, rfl⟩)))
  · replace h : execFaData b s = .next t := h
    rw [execFaData, performFa_selected hv e] at h
    rcases hw : s.writeFa s.faCur b with f | u
    · simp [hw] at h
    · obtain ⟨-, rfl⟩ := State.writeFa_ok.1 hw
      simp only [hw] at h
      cases h
      exact .inr (.inr (.inr (.inr (.inl ⟨h1, h2, h3, h4, rfl⟩))))
  · replace h : execFaOverflow b s = .next t := h
    rw [execFaOverflow, performFa_selected hv e] at h
    cases h
    exact .inr (.inr (.inr (.inr (.inr ⟨h1, h2, h3, h4, rfl⟩))))

/-- Everything a CH_CONSUME can do when it answers a next state: nothing, when it is disabled, or one
dequeue and one assembler step (R103). -/
theorem execChConsume_cases {s t : State} (h : execChConsume s = .next t) :
    ((s.chCnt = 0 ∨ s.diagPend.valid = true) ∧ t = s) ∨
    (0 < s.chCnt ∧ s.diagPend.valid = false ∧ s.chRd < s.cfg.chCap ∧
      ∃ b, s.chBuf.read s.chRd = some b ∧
        faStep b { s with chRd := (s.chRd + 1) % s.cfg.chCap, chCnt := s.chCnt - 1 } = .next t) := by
  unfold execChConsume at h
  split at h
  · rename_i he
    have he' : 0 < s.chCnt ∧ s.diagPend.valid = false := by
      simpa [State.consumeEnabled] using he
    rcases hd : s.dequeue with f | ⟨b, u⟩
    · simp [hd] at h
    · obtain ⟨h1, h2, rfl⟩ := State.dequeue_ok.1 hd
      simp only [hd] at h
      exact .inr ⟨he'.1, he'.2, h1, b, h2, h⟩
  · rename_i he
    cases h
    refine .inl ⟨?_, rfl⟩
    rcases hv : s.diagPend.valid with _ | _
    · refine .inl ?_
      have : ¬ 0 < s.chCnt := fun hc => he (by simp [State.consumeEnabled, hc, hv])
      omega
    · exact .inr rfl

end Sys2Proof.Machine
end

