-- ==== Sys2Proof/Laws/PerInstr.lean ====
section
/-! SUPPORT. One fact per operation about its code: it has the format and the fixed part of its row in
the opcode table. -/

namespace Sys2Proof.Laws.EncodingFormat

/-- The code of an operation has its row's format: an agent-step row has no bits and is selected by the
agent (R5); an assembler row fixes the bits under its mask, and the byte field gives the operation back
(R72, R73); a dispatcher row fixes the keyword at the front of the payload's tokens (R75, R76). -/
def Statement (i : Instr) : Prop :=
  match encode i with
  | .agentStep a => decodeStep a = i ∧ i.tokens = []
  | .faWord w =>
    ∃ row ∈ faTable, w &&& row.mask = row.pattern ∧ row.operation (wordByte w) = i ∧ i.tokens = []
  | .payload p => p = joinTokens i.tokens ∧ i.tokens ≠ []

theorem chPush (b : Byte) : Statement (.chPush b) := ⟨rfl, rfl⟩
theorem chConsume : Statement .chConsume := ⟨rfl, rfl⟩
theorem chRxTimeout : Statement .chRxTimeout := ⟨rfl, rfl⟩
theorem diagDrain : Statement .diagDrain := ⟨rfl, rfl⟩
theorem hostRead (r : Nat) : Statement (.hostRead r) := ⟨rfl, rfl⟩
theorem reset : Statement .reset := ⟨rfl, rfl⟩

/-- A word in WAIT has the bit S at 0 (R72). -/
theorem faWord_wait_masked (b : Byte) : faWord .wait b &&& 0x100#9 = 0x000#9 := by
  revert b; decide

/-- A word in COLLECT has the bit S at 1 (R72). -/
theorem faWord_collect_masked (b : Byte) : faWord .collect b &&& 0x100#9 = 0x100#9 := by
  revert b; decide

theorem faStart : Statement .faStart := ⟨faTable[0], by simp [faTable], by decide, rfl, rfl⟩
theorem faNoise (b : Byte) : Statement (.faNoise b) :=
  ⟨faTable[1], by simp [faTable], faWord_wait_masked b, by rw [wordByte_faWord]; rfl, rfl⟩
theorem faEnd : Statement .faEnd := ⟨faTable[2], by simp [faTable], by decide, rfl, rfl⟩
theorem faRestart : Statement .faRestart := ⟨faTable[3], by simp [faTable], by decide, rfl, rfl⟩
theorem faData (b : Byte) : Statement (.faData b) :=
  ⟨faTable[4], by simp [faTable], faWord_collect_masked b, by rw [wordByte_faWord]; rfl, rfl⟩
theorem faOverflow (b : Byte) : Statement (.faOverflow b) :=
  ⟨faTable[5], by simp [faTable], faWord_collect_masked b, by rw [wordByte_faWord]; rfl, rfl⟩

theorem cmdPid (p i d : Token) : Statement (.cmdPid p i d) := ⟨rfl, by simp [Instr.tokens]⟩
theorem cmdLedOn : Statement .cmdLedOn := ⟨rfl, by simp [Instr.tokens]⟩
theorem cmdLedOff : Statement .cmdLedOff := ⟨rfl, by simp [Instr.tokens]⟩
theorem cmdLedBadarg (arg : Token) : Statement (.cmdLedBadarg arg) := ⟨rfl, by simp [Instr.tokens]⟩
theorem cmdStatus : Statement .cmdStatus := ⟨rfl, by simp [Instr.tokens]⟩
theorem cmdArgcMismatch (kw : Keyword) (args : List Token) : Statement (.cmdArgcMismatch kw args) :=
  ⟨rfl, by simp [Instr.tokens]⟩
theorem cmdUnknown (kw : Token) (args : List Token) : Statement (.cmdUnknown kw args) :=
  ⟨rfl, by simp [Instr.tokens]⟩

end Sys2Proof.Laws.EncodingFormat
end

