-- ==== Sys2Proof/Laws/Step.lean ====
section
/-! SUPPORT. The inversion of the step: everything a step can do when it answers a next state. -/

namespace Sys2Proof.Machine

/-- One case per agent step, with the rule that gives it. `u` is the state with the choice taken off the
schedule. -/
theorem step_cases {s t : State} (h : step s = .next t) :
    configRefusal s.cfg = none ∧
    ((s.schedule = [] ∧ t = s) ∨
    ∃ x rest u, s.schedule = x :: rest ∧ u = { s with schedule := rest } ∧
      ((∃ b, x = .producerPush b ∧ s.chCnt < s.cfg.chCap ∧ s.chWr < s.cfg.chCap ∧
          t = { u with
            chBuf := s.chBuf.write s.chWr b, chWr := (s.chWr + 1) % s.cfg.chCap
            chCnt := s.chCnt + 1, trace := s.trace ++ [.accepted b] }) ∨
        (∃ b, x = .producerPush b ∧ ¬ s.chCnt < s.cfg.chCap ∧
          t = { u with dropCnt := bump s.dropCnt, trace := s.trace ++ [.dropped b] }) ∨
        (x = .consumerConsume ∧ execChConsume u = .next t) ∨
        (x = .consumerTimeout ∧ (t = u ∨ (s.diagPend.valid = false ∧ t = u.leaveFrame))) ∨
        (x = .sinkDrain ∧ s.diagPend.valid = false ∧ t = u) ∨
        (x = .sinkDrain ∧ s.diagPend.valid = true ∧
          t = { u with
            trace := s.trace ++
              [.diag s.diagPend.code s.diagPend.d0 s.diagPend.d1 s.diagPend.d2]
            diagPend := { s.diagPend with valid := false } }) ∨
        (∃ r v k, x = .hostRead r ∧ u.view r = some (v, k) ∧
          t = { u with trace := s.trace ++ [.read r v], draws := s.draws + k }) ∨
        (x = .hostReset ∧ t = u.applyReset))) := by
  unfold step at h
  rcases hc : configRefusal s.cfg with _ | r
  · refine ⟨rfl, ?_⟩
    simp only [hc] at h
    rcases hs : s.schedule with _ | ⟨x, rest⟩
    · simp only [hs] at h; cases h; exact .inl ⟨rfl, rfl⟩
    · simp only [hs] at h
      refine .inr ⟨x, rest, _, rfl, rfl, ?_⟩
      cases x with
      | producerPush b =>
        replace h : execChPush b { s with schedule := rest } = .next t := h
        unfold execChPush at h
        split at h
        · rename_i ha
          have ha' : s.chCnt < s.cfg.chCap := by simpa [State.acceptsPush] using ha
          split at h
          · cases h
          · rename_i w hw
            obtain ⟨h1, rfl⟩ := State.enqueue_ok.1 hw
            cases h
            exact .inl ⟨b, rfl, ha', h1, rfl⟩
        · rename_i ha
          have ha' : ¬ s.chCnt < s.cfg.chCap := by simpa [State.acceptsPush] using ha
          cases h
          exact .inr (.inl ⟨b, rfl, ha', rfl⟩)
      | consumerConsume => exact .inr (.inr (.inl ⟨rfl, h⟩))
      | consumerTimeout =>
        replace h : execChRxTimeout { s with schedule := rest } = .next t := h
        refine .inr (.inr (.inr (.inl ⟨rfl, ?_⟩)))
        unfold execChRxTimeout at h
        split at h
        · rename_i ht
          have hv : s.diagPend.valid = false := by
            simp only [State.timeoutEnabled, Bool.and_eq_true, Bool.not_eq_true'] at ht
            exact ht.2
          cases h
          unfold faTimeout
          split
          · exact .inr ⟨hv, rfl⟩
          · exact .inl rfl
        · cases h; exact .inl rfl
      | sinkDrain =>
        replace h : execDiagDrain { s with schedule := rest } = .next t := h
        unfold execDiagDrain at h
        split at h
        · rename_i hd
          cases h
          exact .inr (.inr (.inr (.inr (.inr (.inl ⟨rfl, hd, rfl⟩)))))
        · rename_i hd
          cases h
          exact .inr (.inr (.inr (.inr (.inl ⟨rfl, by simpa [State.drainEnabled] using hd, rfl⟩))))
      | hostRead r =>
        replace h : execHostRead r { s with schedule := rest } = .next t := h
        unfold execHostRead at h
        split at h
        · rename_i v k hv
          cases h
          exact .inr (.inr (.inr (.inr (.inr (.inr (.inl ⟨r, v, k, rfl, hv, rfl⟩))))))
        · cases h
      | hostReset =>
        cases h
        exact .inr (.inr (.inr (.inr (.inr (.inr (.inr ⟨rfl, rfl⟩))))))
  · simp only [hc] at h; cases h

end Sys2Proof.Machine
end

