-- ==== Sys2Proof/Tests/Slice0.lean ====
section
/-! SUPPORT. The model's own tests. Expected values are those of spec/95_test_vectors.md and of the
examples in the rules, or are computed by hand from a rule. A `witness_` theorem shows that the
hypotheses of the obligation in its name can be met together, one case a clause. -/

namespace Sys2Proof.Tests

open Sys2Proof.Machine

/-! ### Small configurations and states -/

/-- `N = 2`, `M = 4`, RESTART, a receive timeout that abandons. -/
def cfg : Config :=
  { Config.default with
    chCap := 2, faCap := 4, rxTimeout := 1, abandonOnTimeout := true, lbracketPolicy := .restart }

/-- A configuration in which tokens of a command fit the buffer. -/
def wide : Config := { Config.default with chCap := 2, faCap := 16 }

/-- Reset under `cfg`. -/
def s0 : State := State.ofConfig cfg

/-- One byte `b` in the channel, in WAIT. -/
def holding (b : Byte) : State := { s0 with chBuf := [(0, b)], chWr := 1, chCnt := 1 }

/-- COLLECT with the payload `p` collected. -/
def collecting (c : Config) (p : List Byte) : State :=
  { State.ofConfig c with
    faState := .collect, faBuf := Memory.writeAll (Memory.zerosFrom 0 c.faCap) 0 p, faCur := p.length }

/-- DIAG_LED_OK pending. -/
def pending : State := { s0 with led := true, diagPend := ⟨true, 0x02, 1, 0, 0⟩ }

/-- The state of a next outcome. -/
def after : Host.Outcome State Fault Refusal → Option State
  | .next s => some s
  | .fault _ => none
  | .refused _ => none

/-! ### WellFormed refuses each ill-formed operand -/

/-- R213: no register above 0x0D. -/
theorem test_wf_hostRead : (Instr.hostRead 0x0E).wf cfg = false := by decide
/-- R122: `[` is not noise. -/
theorem test_wf_faNoise : (Instr.faNoise 0x5B).wf cfg = false := by decide
/-- R124: no restart under DATA. -/
theorem test_wf_faRestart : Instr.faRestart.wf wide = false := by decide
/-- R125: not `]`, not `[` under RESTART, and never with `M = 1`. -/
theorem test_wf_faData :
    (Instr.faData 0x5D).wf wide = false ∧ (Instr.faData 0x5B).wf cfg = false ∧
      (Instr.faData 0x41).wf { wide with faCap := 1 } = false := by decide
/-- R126: not `]`, and not `[` under RESTART. -/
theorem test_wf_faOverflow :
    (Instr.faOverflow 0x5D).wf wide = false ∧ (Instr.faOverflow 0x5B).wf cfg = false := by decide
/-- R151, R123, R128, R124, R74: no comma, `]`, NUL or (under RESTART) `[` in a token. -/
theorem test_wf_cmdPid_bytes :
    [0x2C#8, 0x5D#8, 0x00#8, 0x5B#8].all fun b =>
      !(Instr.cmdPid [b] [] []).wf { cfg with faCap := 16 } := by decide
/-- R74, R128: at most `M-1` bytes in the payload. -/
theorem test_wf_payload_length :
    (Instr.cmdPid [] [] []).wf { wide with faCap := 6 } = false ∧
      Instr.cmdLedOn.wf { wide with faCap := 6 } = false ∧
      Instr.cmdLedOff.wf { wide with faCap := 7 } = false := by decide
/-- R159: `ON` and `OFF` are no bad arguments. -/
theorem test_wf_cmdLedBadarg :
    (Instr.cmdLedBadarg [0x4F#8, 0x4E#8]).wf wide = false ∧
      (Instr.cmdLedBadarg [0x4F#8, 0x46#8, 0x46#8]).wf wide = false := by decide
/-- R154: STATUS is a keyword only when STATUS_ENABLED. -/
theorem test_wf_cmdStatus :
    Instr.cmdStatus.wf { wide with statusEnabled := false } = false ∧
      (Instr.cmdArgcMismatch .status [[]]).wf { wide with statusEnabled := false } = false := by
  decide
/-- R161: the keyword's own count is no mismatch. -/
theorem test_wf_cmdArgcMismatch : (Instr.cmdArgcMismatch .led [[0x41#8]]).wf wide = false := by decide
/-- R162: a keyword of the table is not unknown. -/
theorem test_wf_cmdUnknown : (Instr.cmdUnknown [0x50#8, 0x49#8, 0x44#8] []).wf wide = false := by decide
/-- R73 rows 5 and 6: the side condition on the cursor. -/
theorem test_side :
    (Instr.faData 0x41).sideOk cfg 3 = false ∧ (Instr.faOverflow 0x41).sideOk cfg 2 = false := by decide

/-! ### Decoding, from words written out bit by bit (R5, R73, R76) -/

/-- Agent steps have no bits: the agent's choice is the code. -/
theorem test_decode_agent_steps :
    decode cfg 0 (.agentStep (.producerPush 0x41)) = .chPush 0x41 ∧
      decode cfg 0 (.agentStep .consumerConsume) = .chConsume ∧
      decode cfg 0 (.agentStep .consumerTimeout) = .chRxTimeout ∧
      decode cfg 0 (.agentStep .sinkDrain) = .diagDrain ∧
      decode cfg 0 (.agentStep (.hostRead 8)) = .hostRead 8 ∧
      decode cfg 0 (.agentStep .hostReset) = .reset := by decide
/-- S = 0, B = `[`. -/
theorem test_decode_faStart : decode cfg 0 (.faWord 0b001011011) = .faStart := by decide
/-- S = 0, B = `]`, and B = NUL. -/
theorem test_decode_faNoise :
    decode cfg 0 (.faWord 0b001011101) = .faNoise 0x5D ∧
      decode cfg 0 (.faWord 0b000000000) = .faNoise 0x00 := by decide
/-- S = 1, B = `]`, at every cursor. -/
theorem test_decode_faEnd :
    decode cfg 0 (.faWord 0b101011101) = .faEnd ∧ decode cfg 3 (.faWord 0b101011101) = .faEnd := by decide
/-- S = 1, B = `[`, under RESTART at every cursor. -/
theorem test_decode_faRestart :
    decode cfg 0 (.faWord 0b101011011) = .faRestart ∧
      decode cfg 3 (.faWord 0b101011011) = .faRestart := by decide
/-- S = 1, B = `A` with room; `[` under DATA with room; 0xFF with room. -/
theorem test_decode_faData :
    decode cfg 2 (.faWord 0b101000001) = .faData 0x41 ∧
      decode wide 2 (.faWord 0b101011011) = .faData 0x5B ∧
      decode cfg 0 (.faWord 0b111111111) = .faData 0xFF := by decide
/-- S = 1, B = `A` and (under DATA) `[`, at the cursor `M-1`. -/
theorem test_decode_faOverflow :
    decode cfg 3 (.faWord 0b101000001) = .faOverflow 0x41 ∧
      decode wide 15 (.faWord 0b101011011) = .faOverflow 0x5B := by decide
/-- `PID,1,,-2`: 50 49 44, then three tokens, the second empty. -/
theorem test_decode_cmdPid :
    decode wide 0 (.payload [0x50, 0x49, 0x44, 0x2C, 0x31, 0x2C, 0x2C, 0x2D, 0x32]) =
      .cmdPid [0x31] [] [0x2D, 0x32] := by decide
/-- `LED,ON`: 4C 45 44, 4F 4E. -/
theorem test_decode_cmdLedOn :
    decode wide 0 (.payload [0x4C, 0x45, 0x44, 0x2C, 0x4F, 0x4E]) = .cmdLedOn := by decide
/-- `LED,OFF`: 4C 45 44, 4F 46 46. -/
theorem test_decode_cmdLedOff :
    decode wide 0 (.payload [0x4C, 0x45, 0x44, 0x2C, 0x4F, 0x46, 0x46]) = .cmdLedOff := by decide
/-- `LED,on` and `LED,` (R159). -/
theorem test_decode_cmdLedBadarg :
    decode wide 0 (.payload [0x4C, 0x45, 0x44, 0x2C, 0x6F, 0x6E]) = .cmdLedBadarg [0x6F, 0x6E] ∧
      decode wide 0 (.payload [0x4C, 0x45, 0x44, 0x2C]) = .cmdLedBadarg [] := by decide
/-- `STATUS`: 53 54 41 54 55 53, a keyword only when enabled (R160). -/
theorem test_decode_cmdStatus :
    decode wide 0 (.payload [0x53, 0x54, 0x41, 0x54, 0x55, 0x53]) = .cmdStatus ∧
      decode { wide with statusEnabled := false } 0 (.payload [0x53, 0x54, 0x41, 0x54, 0x55, 0x53]) =
        .cmdUnknown [0x53, 0x54, 0x41, 0x54, 0x55, 0x53] [] := by decide
/-- `LED` and `PID,1,2,3,` (R161). -/
theorem test_decode_cmdArgcMismatch :
    decode wide 0 (.payload [0x4C, 0x45, 0x44]) = .cmdArgcMismatch .led [] ∧
      decode wide 0 (.payload [0x50, 0x49, 0x44, 0x2C, 0x31, 0x2C, 0x32, 0x2C, 0x33, 0x2C]) =
        .cmdArgcMismatch .pid [[0x31], [0x32], [0x33], []] := by decide
/-- The empty payload, and `pid` (R162). -/
theorem test_decode_cmdUnknown :
    decode wide 0 (.payload []) = .cmdUnknown [] [] ∧
      decode wide 0 (.payload [0x70, 0x69, 0x64]) = .cmdUnknown [0x70, 0x69, 0x64] [] := by decide

/-! ### The opcode table's words (log entry 16) -/

/-- The match values of the assembler rows, and a payload as bytes, first byte lowest. -/
theorem test_table_words :
    decodeTableWord 16 0x05B = some .faStart ∧ decodeTableWord 16 0x000 = some (.faNoise 0x00) ∧
      decodeTableWord 16 0x15D = some .faEnd ∧ decodeTableWord 16 0x15B = some .faRestart ∧
      decodeTableWord 16 0x100 = some (.faData 0x00) ∧
      decodeTableWord 48 0x4E4F2C44454C = some .cmdLedOn ∧ decodeTableWord 0 0 = none := by decide

/-- A word placed by withFetchWord is the one the next step runs: `[` starts a frame, and `LED,ON` lights
the LED. -/
theorem test_withFetchWord :
    ((after (step (State.reset.withFetchWord 16 0x05B))).map (·.faState)) = some .collect ∧
      ((after (step (State.reset.withFetchWord 48 0x4E4F2C44454C))).map (·.led)) = some true := by
  decide +kernel

/-! ### One step of each operation -/

/-- R101: the last free slot takes the byte, and the write pointer wraps. -/
theorem test_push_accepts :
    (after (exec (.chPush 0x42) { holding 0x41 with chWr := 1 })).map
        (fun t => (t.chBuf, t.chWr, t.chCnt, t.trace)) =
      some ([(0, 0x41), (1, 0x42)], 0, 2, [.accepted 0x42]) := by decide
/-- R101: a full channel drops the byte, and the count wraps modulo 2^32. -/
theorem test_push_drops :
    (after (exec (.chPush 0x43) { s0 with chCnt := 2, dropCnt := 0xFFFFFFFF })).map
        (fun t => (t.chBuf, t.chCnt, t.dropCnt, t.trace)) =
      some ([], 2, 0, [.dropped 0x43]) := by decide
/-- R103: with `Q = [0x5B]` in WAIT, one consume empties the channel and starts a frame. -/
theorem test_consume_starts :
    (after (exec .chConsume (holding 0x5B))).map
        (fun t => (t.chRd, t.chCnt, t.faState, t.faCur)) = some (1, 0, .collect, 0) := by decide
/-- R103: disabled while a diagnostic is pending. -/
theorem test_consume_disabled :
    after (exec .chConsume { holding 0x5B with diagPend := ⟨true, 0x02, 1, 0, 0⟩ }) =
      some { holding 0x5B with diagPend := ⟨true, 0x02, 1, 0, 0⟩ } := by decide
/-- R104: the timeout abandons under the policy. -/
theorem test_timeout_abandons :
    (after (exec .chRxTimeout (collecting cfg [0x4C, 0x45]))).map (fun t => (t.faState, t.faCur)) =
      some (.wait, 0) := by decide
/-- R130: without the policy the partial frame survives. -/
theorem test_timeout_keeps :
    (after (exec .chRxTimeout
        (collecting { cfg with abandonOnTimeout := false } [0x4C, 0x45]))).map
        (fun t => (t.faState, t.faCur)) = some (.collect, 2) := by decide
/-- R171: the pending diagnostic leaves as `Diag(0x02, 1, 0, 0)`. -/
theorem test_drain :
    (after (exec .diagDrain pending)).map (fun t => (t.diagPend.valid, t.trace)) =
      some (false, [.diag 0x02 1 0 0]) := by decide
/-- R37, R213: every register, with a diagnostic pending. -/
theorem test_host_read :
    (List.range 14).map (fun r =>
        (after (exec (.hostRead r)
          { pending with
            chCnt := 2, dropCnt := 7, faState := .collect, faCur := 3, ovfCnt := 9 })).map
          (·.trace)) =
      [2, 7, 1, 3, 9, 0x11111111, 0x22222222, 0x33333333, 1, 1, 2, 1, 0, 0].zipIdx.map
        (fun v => some [.read v.2 v.1]) := by decide
/-- R213: 0x0E is refused. -/
theorem test_host_read_refused : after (exec (.hostRead 0x0E) s0) = none := by decide
/-- R230: RESET discards a partial frame and a pending diagnostic without an event. -/
theorem test_reset :
    (after (exec .reset
        { collecting cfg [0x4C] with
          chCnt := 1, dropCnt := 3, led := true, diagPend := ⟨true, 1, 1, 1, 1⟩, trace := [.read 0 0] })).map
        (fun t => (t.faState, t.chCnt, t.dropCnt, t.diagPend.valid, t.trace)) =
      some (.wait, 0, 0, false, [.read 0 0]) := by decide
/-- R121: all M bytes are cleared. -/
theorem test_faStart :
    (after (exec .faStart { s0 with faBuf := [(1, 0x41)] })).map (fun t => (t.faState, t.faBuf)) =
      some (.collect, [(0, 0), (1, 0), (2, 0), (3, 0)]) := by decide
/-- R122: `]` in WAIT is noise. -/
theorem test_faNoise : after (exec (.faNoise 0x5D) s0) = some s0 := by decide
/-- R123: `LED,ON` then `]` lights the LED and leaves the frame. -/
theorem test_faEnd :
    (after (exec .faEnd (collecting wide [0x4C, 0x45, 0x44, 0x2C, 0x4F, 0x4E]))).map
        (fun t => (t.faState, t.faCur, t.led, t.diagPend)) =
      some (.wait, 0, true, ⟨true, 0x02, 1, 0, 0⟩) := by decide +kernel
/-- R128: the payload is cut at an embedded NUL: `STATUS`, NUL, `x` is STATUS. -/
theorem test_faEnd_nul :
    (after (exec .faEnd
        (collecting wide [0x53, 0x54, 0x41, 0x54, 0x55, 0x53, 0x00, 0x78]))).map
        (·.diagPend.code) = some 0x03 := by decide +kernel
/-- R124: `LE` then `[` under RESTART. -/
theorem test_faRestart :
    (after (exec .faRestart (collecting cfg [0x4C, 0x45]))).map (fun t => (t.faState, t.faCur, t.diagPend)) =
      some (.collect, 0, ⟨false, 0, 0, 0, 0⟩) := by decide
/-- R125: `L` at the cursor 0. -/
theorem test_faData :
    (after (exec (.faData 0x4C) (collecting cfg []))).map (fun t => (t.faCur, t.faBuf.read 0)) =
      some (1, some 0x4C) := by decide
/-- R126: the byte at the cursor `M-1` overflows, and the count wraps. -/
theorem test_faOverflow :
    (after (exec (.faOverflow 0x41)
        { collecting cfg [0x41, 0x41, 0x41] with ovfCnt := 0xFFFFFFFF })).map
        (fun t => (t.faState, t.faCur, t.ovfCnt, t.diagPend)) =
      some (.wait, 0, 0, ⟨true, 0x20, 0, 0, 0⟩) := by decide
/-- R156: `PID,1.0,0.5,0.01`. -/
theorem test_cmdPid :
    (after (exec (.cmdPid [0x31, 0x2E, 0x30] [0x30, 0x2E, 0x35] [0x30, 0x2E, 0x30, 0x31]) s0)).map
        (fun t => (t.gain, t.diagPend)) =
      some (⟨0x3F800000, 0x3F000000, 0x3C23D70A⟩,
        ⟨true, 0x01, 0x3F800000, 0x3F000000, 0x3C23D70A⟩) := by decide +kernel
/-- R157. -/
theorem test_cmdLedOn :
    (after (exec .cmdLedOn s0)).map (fun t => (t.led, t.diagPend)) =
      some (true, ⟨true, 0x02, 1, 0, 0⟩) := by decide
/-- R158. -/
theorem test_cmdLedOff :
    (after (exec .cmdLedOff { s0 with led := true })).map (fun t => (t.led, t.diagPend)) =
      some (false, ⟨true, 0x02, 0, 0, 0⟩) := by decide
/-- R159: `on`. -/
theorem test_cmdLedBadarg :
    (after (exec (.cmdLedBadarg [0x6F, 0x6E]) { s0 with led := true })).map (fun t => (t.led, t.diagPend)) =
      some (true, ⟨true, 0x12, 0, 0, 0⟩) := by decide
/-- R160: after 44 drops and no overflow. -/
theorem test_cmdStatus :
    (after (exec .cmdStatus { s0 with dropCnt := 44 })).map (·.diagPend) =
      some ⟨true, 0x03, 44, 0, 0⟩ := by decide
/-- R161: `PID,1.0` leaves the gains. -/
theorem test_cmdArgcMismatch :
    (after (exec (.cmdArgcMismatch .pid [[0x31, 0x2E, 0x30]]) s0)).map (fun t => (t.gain, t.diagPend)) =
      some (cfg.gainReset, ⟨true, 0x10, 0, 0, 0⟩) := by decide
/-- R162: `FOO,1,2`. -/
theorem test_cmdUnknown :
    (after (exec (.cmdUnknown [0x46, 0x4F, 0x4F] [[0x31], [0x32]]) s0)).map (·.diagPend) =
      some ⟨true, 0x11, 0, 0, 0⟩ := by decide

/-! ### NUM_CONV (spec/95_test_vectors.md NC-1 to NC-28) -/

/-- NC-1 to NC-5, NC-7 to NC-10. -/
theorem test_numConv_plain :
    [[0x31, 0x2E, 0x30], [0x30, 0x2E, 0x35], [0x30, 0x2E, 0x30, 0x31], [], [0x61, 0x62, 0x63],
      [0x20, 0x33], [0x2B, 0x37], [0x2D, 0x30], [0x2D, 0x32, 0x2E, 0x35]].map numConvRef =
      [0x3F800000, 0x3F000000, 0x3C23D70A, 0, 0, 0x40400000, 0x40E00000, 0x80000000, 0xC0200000] := by
  decide +kernel
/-- NC-6, NC-11 to NC-16. -/
theorem test_numConv_prefix :
    [[0x31, 0x2E, 0x35, 0x61, 0x62, 0x63], [0x2E, 0x35], [0x35, 0x2E], [0x2E], [0x31, 0x65],
      [0x31, 0x65, 0x2B, 0x32], [0x31, 0x45, 0x2D, 0x33]].map numConvRef =
      [0x3FC00000, 0x3F000000, 0x40A00000, 0, 0x3F800000, 0x42C80000, 0x3A83126F] := by decide +kernel
/-- NC-17, NC-18, NC-21, NC-22, NC-28. -/
theorem test_numConv_range :
    [[0x31, 0x65, 0x33, 0x39], [0x2D, 0x31, 0x65, 0x33, 0x39], [0x31, 0x65, 0x2D, 0x34, 0x35],
      [0x31, 0x65, 0x2D, 0x35, 0x30], [0x30, 0x2E, 0x31]].map numConvRef =
      [0x7F800000, 0xFF800000, 0x00000001, 0, 0x3DCCCCCD] := by decide +kernel
/-- NC-19 and NC-20: either side of the overflow threshold. -/
theorem test_numConv_threshold :
    [[0x33, 0x2E, 0x34, 0x30, 0x32, 0x38, 0x32, 0x33, 0x35, 0x65, 0x33, 0x38],
      [0x33, 0x2E, 0x34, 0x30, 0x32, 0x38, 0x32, 0x33, 0x36, 0x65, 0x33, 0x38]].map numConvRef =
      [0x7F7FFFFF, 0x7F800000] := by decide +kernel
/-- NC-23 to NC-27. -/
theorem test_numConv_rejected :
    [[0x6E, 0x61, 0x6E], [0x69, 0x6E, 0x66], [0x30, 0x78, 0x31, 0x30], [0x2D, 0x2D, 0x31],
      [0x30, 0x30, 0x30, 0x31, 0x32]].map numConvRef = [0, 0, 0, 0, 0x41400000] := by decide +kernel

/-! ### Reset -/

/-- The arrays are in canonical form at reset, and the configuration is admitted. -/
theorem test_reset_arrays : State.reset.chBuf.wf = true ∧ State.reset.faBuf.wf = true := by decide

theorem test_reset_admitted : configRefusal State.reset.cfg = none := by decide

/-- `witness` of the invariant: the state after reset. -/
theorem inv_reset : State.reset.Inv := by constructor <;> decide

/-- The invariant in small states: reset, one byte waiting, a partial frame, a pending diagnostic. -/
theorem inv_s0 : s0.Inv := by constructor <;> decide

theorem inv_holding : (holding 0x5B).Inv := by constructor <;> decide

theorem inv_collecting : (collecting cfg [0x4C, 0x45]).Inv := by constructor <;> decide

theorem inv_pending : pending.Inv := by constructor <;> decide

/-! ### Witnesses of the hypotheses of the obligations -/

/-- Clauses: an unknown keyword, a mismatch, PID, STATUS, LED (with `ON`, `OFF` and another value). -/
theorem witness_DispatchSelectionFollowsCheckOrder :
    (keywordTable wide).lookup [] = none ∧
      (keywordTable wide).lookup [0x4C#8, 0x45#8, 0x44#8] = some 1 ∧ ([] : List Token).length ≠ 1 ∧
      wide.statusEnabled = true ∧ ([0x4F#8, 0x4E#8] : Token) ≠ [0x4F#8, 0x46#8, 0x46#8] ∧
      ([] : Token) ≠ [0x4F#8, 0x4E#8] := by decide

/-- One operation of each level, with the cursor at the ends of its range. -/
theorem witness_DecodeOfEncodeIsTheOperation :
    (Instr.hostRead 0x0D).wf cfg = true ∧ (Instr.faData 0x41).wf cfg = true ∧
      (Instr.faData 0x41).sideOk cfg 2 = true ∧ (Instr.faOverflow 0x41).wf cfg = true ∧
      (Instr.faOverflow 0x41).sideOk cfg 3 = true ∧ (Instr.cmdPid [0x31#8] [] [0x32#8]).wf wide = true ∧
      (Instr.cmdUnknown [] []).wf cfg = true := by decide

theorem witness_StepRunsTheScheduledOperation :
    configRefusal { s0 with schedule := [.hostReset] }.cfg = none ∧
      { s0 with schedule := [.hostReset] }.schedule = .hostReset :: [] ∧ s0.schedule = [] := by decide

/-- One configuration for each ground of refusal. -/
theorem witness_StepRefusesInadmissibleConfigurations :
    ({ cfg with producers := 2 } : Config).producers ≠ 1 ∧ ({ cfg with chCap := 0 } : Config).chCap = 0 ∧
      ({ cfg with faCap := 0 } : Config).faCap = 0 ∧
      (∃ t, parseNumber t = none ∧ numConv { cfg with numConvTable := [([], 1)] } t ≠ 0) :=
  ⟨by decide, by decide, by decide, [], by decide⟩

/-- Both grounds for a disabled consume, a disabled timeout with a byte waiting, a disabled drain. -/
theorem witness_DisabledStepsChangeNothing :
    s0.chCnt = 0 ∧ pending.diagPend.valid = true ∧ (State.ofConfig wide).cfg.rxTimeout = 0 ∧
      (holding 0x5B).chCnt ≠ 0 ∧ s0.diagPend.valid = false := by decide

/-- FA_DATA in WAIT, FA_END in a stalled state, CMD_STATUS while STATUS is no keyword. -/
theorem witness_UnselectedOperationsChangeNothing :
    decodeFa s0.cfg s0.faState s0.faCur 0x41 ≠ .faData 0x41 ∧ pending.diagPend.valid = true ∧
      RB = (if Instr.faEnd = .faEnd then RB else LB) ∧
      decodeTokens { cfg with statusEnabled := false } Instr.cmdStatus.tokens ≠ .cmdStatus ∧
      Instr.cmdStatus.tokens ≠ [] := by decide

/-- With one slot free, and full. -/
theorem witness_PushStoresOrCountsADrop :
    (holding 0x41).chCnt + 1 = cfg.chCap ∧ (holding 0x41).chWr < (holding 0x41).cfg.chCap ∧
      ¬ ({ s0 with chCnt := 2 } : State).chCnt < cfg.chCap := by decide

theorem witness_ConsumeRunsTheSelectedAssemblerOperation :
    0 < (holding 0x5B).chCnt ∧ (holding 0x5B).diagPend.valid = false ∧
      (holding 0x5B).chRd < (holding 0x5B).cfg.chCap ∧
      (holding 0x5B).chBuf.read (holding 0x5B).chRd = some 0x5B := by decide

theorem witness_ConsumeCompletesAndRemovesTheOldestByte :
    (holding 0x5B).Inv ∧ 0 < (holding 0x5B).chCnt ∧ (holding 0x5B).diagPend.valid = false :=
  ⟨inv_holding, by decide, by decide⟩

/-- Collecting under the policy; in WAIT. -/
theorem witness_TimeoutAbandonsOnlyUnderThePolicy :
    cfg.rxTimeout ≠ 0 ∧ (collecting cfg [0x4C]).chCnt = 0 ∧
      (collecting cfg [0x4C]).diagPend.valid = false ∧ cfg.abandonOnTimeout = true ∧
      (collecting cfg [0x4C]).faState = .collect ∧ s0.faState = .wait := by decide

/-- Three pushes into two slots. -/
theorem witness_BurstDropsExactlyTheExcess :
    ({ s0 with schedule := [1#8, 2#8, 3#8].map .producerPush } : State).Inv ∧
      ({ s0 with schedule := [1#8, 2#8, 3#8].map .producerPush } : State).schedule =
        [1#8, 2#8, 3#8].map .producerPush ++ [] := by
  refine ⟨?_, by decide⟩
  constructor <;> decide

/-- Two pushes and a consume. -/
theorem witness_ChannelDeliversInAcceptedOrder :
    ({ s0 with schedule := [.producerPush 1, .producerPush 2, .consumerConsume] } : State).Inv ∧
      .hostReset ∉
        ({ s0 with schedule := [.producerPush 1, .producerPush 2, .consumerConsume] } : State).schedule ∧
      ((runLog 3
          { s0 with schedule := [.producerPush 1, .producerPush 2, .consumerConsume] }).map
        fun r => (r.1, r.2.1)) = some ([1, 2], [1]) := by
  refine ⟨?_, by decide, by decide⟩
  constructor <;> decide

theorem witness_StartClearsTheBufferAndCollects :
    s0.faState = .wait ∧ s0.diagPend.valid = false := by decide

theorem witness_RestartClearsTheBufferAndStaysCollecting :
    (collecting cfg [0x4C]).faState = .collect ∧ (collecting cfg [0x4C]).diagPend.valid = false ∧
      cfg.lbracketPolicy = .restart ∧ wide.lbracketPolicy = .data ∧
      (collecting wide [0x4C]).faState = .collect := by decide

theorem witness_NoiseWritesNothing : s0.faState = .wait ∧ RB ≠ LB := by decide

/-- Room for exactly one byte. -/
theorem witness_DataStoresTheByteAtTheCursor :
    (collecting cfg [0x4C, 0x45]).faState = .collect ∧
      (collecting cfg [0x4C, 0x45]).diagPend.valid = false ∧ (0x44#8 : Byte) ≠ RB ∧
      ¬ ((0x44#8 : Byte) = LB ∧ cfg.lbracketPolicy = .restart) ∧
      (collecting cfg [0x4C, 0x45]).faCur + 1 < cfg.faCap := by decide

theorem witness_OverflowAbandonsTheFrameAndReports :
    (collecting cfg [0x4C, 0x45, 0x44]).faState = .collect ∧
      (collecting cfg [0x4C, 0x45, 0x44]).diagPend.valid = false ∧ (0x2C#8 : Byte) ≠ RB ∧
      ¬ ((0x2C#8 : Byte) = LB ∧ cfg.lbracketPolicy = .restart) ∧
      (collecting cfg [0x4C, 0x45, 0x44]).faCur + 1 = cfg.faCap := by decide

/-- A payload of exactly `M-1` bytes, one of them NUL; for both statements about FA_END. -/
theorem witness_FrameEndRunsTheSelectedDispatch :
    (collecting cfg [0x4C, 0x00, 0x44]).faState = .collect ∧
      (collecting cfg [0x4C, 0x00, 0x44]).diagPend.valid = false ∧
      (collecting cfg [0x4C, 0x00, 0x44]).faCur < cfg.faCap ∧
      ∀ j < (collecting cfg [0x4C, 0x00, 0x44]).faCur,
        ((collecting cfg [0x4C, 0x00, 0x44]).faBuf.read j).isSome = true := by decide

theorem witness_FrameEndLeavesTheDispatchEffect :
    (collecting wide [0x4C, 0x45, 0x44, 0x2C, 0x4F, 0x4E]).faState = .collect ∧
      (collecting wide [0x4C, 0x45, 0x44, 0x2C, 0x4F, 0x4E]).diagPend.valid = false ∧
      (collecting wide [0x4C, 0x45, 0x44, 0x2C, 0x4F, 0x4E]).faCur < wide.faCap ∧
      ∀ j < (collecting wide [0x4C, 0x45, 0x44, 0x2C, 0x4F, 0x4E]).faCur,
        ((collecting wide [0x4C, 0x45, 0x44, 0x2C, 0x4F, 0x4E]).faBuf.read j).isSome = true := by decide

/-- At the cursor `M-1`, where the next byte overflows. -/
theorem witness_CursorStaysInsideTheBuffer :
    ({ collecting cfg [0x41, 0x41, 0x41] with
        chBuf := [(0, 0x41)], chCnt := 1, schedule := [.consumerConsume] } : State).CursorInside ∧
      (after (step { collecting cfg [0x41, 0x41, 0x41] with
        chBuf := [(0, 0x41)], chCnt := 1, schedule := [.consumerConsume] })).isSome = true := by
  refine ⟨⟨by decide, by decide⟩, by decide⟩

theorem witness_CursorInsideAtReset : 1 ≤ cfg.faCap := by decide

/-- `]` after `LED,ON` changes the LED. -/
theorem witness_OnlyAFrameEndDispatches :
    let s : State := { collecting wide [0x4C, 0x45, 0x44, 0x2C, 0x4F, 0x4E] with
      chBuf := [(0, RB)], chCnt := 1 }
    s.diagPend.valid = false ∧ s.chBuf.read s.chRd = some RB ∧
      ((after (exec .chConsume s)).map (·.led)) = some (!s.led) := by decide +kernel

/-- A partial frame, and the payload `p` of `M-1` bytes. -/
theorem witness_OneEndByteResynchronises :
    ({ collecting cfg [0x4C, 0x45] with
        schedule := eagerSchedule ([RB] ++ frameOf [1, 2, 3]) } : State).Inv ∧
      (collecting cfg [0x4C, 0x45]).chCnt = 0 ∧ (collecting cfg [0x4C, 0x45]).diagPend.valid = false ∧
      ([1, 2, 3] : List Byte).length + 1 ≤ cfg.faCap ∧
      (∀ b ∈ ([1, 2, 3] : List Byte), b ≠ LB ∧ b ≠ RB ∧ b ≠ NUL) ∧
      eagerSchedule ([RB] ++ frameOf [1, 2, 3]) = eagerSchedule ([RB] ++ frameOf [1, 2, 3]) ++ [] := by
  refine ⟨?_, by decide, by decide, by decide, by decide, by decide⟩
  constructor <;> decide

theorem witness_OverlongPayloadOverflowsAtTheMthByte :
    ({ s0 with schedule := eagerSchedule (LB :: [1, 2, 3, 4]) } : State).Inv ∧ s0.chCnt = 0 ∧
      s0.diagPend.valid = false ∧ s0.faState = .wait ∧ ([1, 2, 3, 4] : List Byte).length = cfg.faCap ∧
      (∀ b ∈ ([1, 2, 3, 4] : List Byte), b ≠ RB ∧ ¬ (b = LB ∧ cfg.lbracketPolicy = .restart)) ∧
      eagerSchedule (LB :: [1, 2, 3, 4]) = eagerSchedule (LB :: [1, 2, 3, 4]) ++ [] := by
  refine ⟨?_, by decide, by decide, by decide, by decide, by decide, by decide⟩
  constructor <;> decide

theorem witness_PidStoresThreeGainsAndEchoesThem : s0.diagPend.valid = false := by decide

theorem witness_LedCommandsWriteTheLedAndConfirm :
    ({ s0 with led := true } : State).diagPend.valid = false := by decide

theorem witness_BadLedArgumentOnlyReports :
    s0.diagPend.valid = false ∧ ([0x6F#8, 0x6E#8] : Token) ≠ [0x4F#8, 0x4E#8] ∧
      ([0x6F#8, 0x6E#8] : Token) ≠ [0x4F#8, 0x46#8, 0x46#8] := by decide

theorem witness_StatusReportsTheCounters :
    s0.diagPend.valid = false ∧ s0.cfg.statusEnabled = true := by decide

/-- One count below and one above the keyword's own. -/
theorem witness_ArgumentCountMismatchOnlyReports :
    s0.diagPend.valid = false ∧ (Keyword.status = .status → s0.cfg.statusEnabled = true) ∧
      ([[]] : List Token).length ≠ 0 ∧ ([] : List Token).length ≠ 1 ∧
      ([[], [], [], []] : List Token).length ≠ 3 := by decide

theorem witness_UnknownKeywordOnlyReports :
    s0.diagPend.valid = false ∧ (keywordTable s0.cfg).lookup [0x70#8, 0x69#8, 0x64#8] = none := by decide

/-- A step that changes the gains, and one that changes the LED. -/
theorem witness_GainsAndLedChangeOnlyByTheirCommands :
    let pid : State := { collecting wide [0x50, 0x49, 0x44, 0x2C, 0x2C, 0x2C] with
      chBuf := [(0, RB)], chCnt := 1, schedule := [.consumerConsume] }
    let led : State := { collecting wide [0x4C, 0x45, 0x44, 0x2C, 0x4F, 0x4E] with
      chBuf := [(0, RB)], chCnt := 1, schedule := [.consumerConsume] }
    pid.schedule.head? ≠ some .hostReset ∧ led.schedule.head? ≠ some .hostReset ∧
      ((after (step pid)).map (·.gain)) = some ⟨0, 0, 0⟩ ∧ pid.gain ≠ ⟨0, 0, 0⟩ ∧
      ((after (step led)).map (·.led)) = some (!led.led) := by decide +kernel

/-- A token with no number, and one with a number and a rest. -/
theorem witness_NumberPrefixIsTheLongest :
    parseNumber [0x2D#8] = none ∧
      parseNumber [0x31#8, 0x65#8] = some (⟨false, [0x31#8], [], false, []⟩, [0x65#8]) := by decide

/-- A magnitude at the threshold, and one below it. -/
theorem witness_MagnitudeRoundsToNearestEven :
    0 < 1 ∧ roundMagnitude (2 ^ 128 - 2 ^ 103) 1 = 0x7F800000 ∧
      roundMagnitude (2 ^ 128 - 2 ^ 103 - 1) 1 = 0x7F7FFFFF := by decide +kernel

/-- Exponents at the shortcuts' bounds. -/
theorem witness_DecimalShortcutsAreExact :
    9 < 10 ^ 1 ∧ roundDecimal 9 1 39 = 0x7F800000 ∧ roundDecimal 9 1 (-47) = 0 := by decide +kernel

theorem witness_ReferenceConversionRoundsThePrefixOnce :
    parseNumber [0x2D#8, 0x2E#8, 0x35#8] = some (⟨true, [], [0x35#8], false, []⟩, []) := by decide

theorem witness_NumericConversionProperties :
    configRefusal { cfg with numConvTable := [([0x31#8], 5)] } = none := by decide

theorem witness_EveryLawfulConversionHasATable :
    configRefusal cfg = none ∧ numConvRef [0x31#8, 0x2E#8, 0x30#8] = 0x3F800000 ∧
      numConvRef [0x30#8, 0x2E#8, 0x35#8] = 0x3F000000 ∧
      numConvRef [0x30#8, 0x2E#8, 0x30#8, 0x31#8] = 0x3C23D70A := by decide +kernel

/-- The reference gives 0 where no prefix is a number: the other premise of the same statement. -/
theorem witness_EveryLawfulConversionHasATable_unparsed (t : Token) (h : parseNumber t = none) :
    numConvRef t = 0 := by simp [numConvRef, h]

theorem witness_DrainEmitsThePendingDiagnostic : pending.diagPend.valid = true := by decide

/-- The three cases: a push leaves it, a drain emits it, a RESET discards it. -/
theorem witness_PendingDiagnosticIsNeverOverwritten :
    [AgentStep.producerPush 1, .sinkDrain, .hostReset].map (fun x =>
        (after (step { pending with schedule := [x] })).map (·.diagPend.valid)) =
      [some true, some false, some false] := by decide

theorem witness_ConsumerIsStuckWhileADiagnosticPends :
    configRefusal pending.cfg = none ∧ pending.diagPend.valid = true ∧
      (∀ x ∈ [AgentStep.consumerConsume, .consumerTimeout], x.agent = .consumer) ∧
      ({ pending with schedule := [.consumerConsume, .consumerTimeout, .sinkDrain] } : State).schedule =
        [.consumerConsume, .consumerTimeout] ++ [.sinkDrain] := by decide

/-- The first register, the last, and the first number that is none. -/
theorem witness_HostReadEmitsTheStatusValue :
    0x00 ≤ 0x0D ∧ 0x0D ≤ 0x0D ∧ 0x0D < 0x0E ∧ pending.diagPend.valid = true := by decide

theorem witness_StartStateMeetsTheInvariant : configRefusal cfg = none := by decide

/-- A step of each agent from a state of the invariant; for every statement about all next states. -/
theorem witness_EveryStepKeepsTheMachineInvariant :
    (pending.Inv ∧ (holding 0x5B).Inv) ∧
      [AgentStep.producerPush 1, .sinkDrain, .hostRead 0x0A, .hostReset].all (fun x =>
        (after (step { pending with schedule := [x] })).isSome) = true ∧
      [AgentStep.consumerConsume, .consumerTimeout].all (fun x =>
        (after (step { holding 0x5B with schedule := [x] })).isSome) = true :=
  ⟨⟨inv_pending, inv_holding⟩, by decide, by decide⟩

theorem witness_RunsNeverFault : s0.Inv := inv_s0

/-- A state whose next step completes, and one whose next step is refused. -/
theorem witness_ArrayEngineRefinesTheListEngine :
    (holding 0x5B).Inv ∧ (after (step { s0 with schedule := [.hostRead 0x0E] })).isNone = true ∧
      (after (step { holding 0x5B with schedule := [.consumerConsume] })).isSome = true :=
  ⟨inv_holding, by decide, by decide⟩

/-- A step of each agent, with the choice at the head of the schedule. -/
theorem witness_AgentsWriteOnlyTheirOwnElements :
    [(AgentStep.producerPush 1, Agent.producer), (.consumerConsume, .consumer), (.sinkDrain, .sink),
      (.hostRead 0, .host)].all (fun x =>
        (after (step { holding 0x5B with schedule := [x.1] })).isSome && x.1.agent == x.2) = true := by
  decide

/-- A drop, and an overflow. -/
theorem witness_CountersCountTheirEvents :
    ((after (step { s0 with chCnt := 2, schedule := [.producerPush 1] })).map (·.dropCnt)) = some 1 ∧
      ((after (step { collecting cfg [1, 2, 3] with
        chBuf := [(0, 4)], chCnt := 1, schedule := [.consumerConsume] })).map (·.ovfCnt)) = some 1 := by
  decide

theorem witness_NoStepWritesTheConfiguration : (after (step s0)).isSome = true := by decide

theorem witness_TraceOnlyGrows :
    (after (step { pending with schedule := [.sinkDrain] })).isSome = true := by decide

end Sys2Proof.Tests
end

section
/-! SUPPORT. The machine's invariant (Safety.lean) along steps and runs: each operation keeps it, and from a
state of it each step answers a next state or refuses a HOST_READ of no register (R18). -/

namespace Sys2Proof.Machine

/-! ### What the invariant says of the configuration -/

theorem State.Inv.chCap_pos {s : State} (h : s.Inv) : 0 < s.cfg.chCap :=
  (configRefusal_none.1 h.admitted).2.1

theorem State.Inv.faCap_pos {s : State} (h : s.Inv) : 0 < s.cfg.faCap :=
  (configRefusal_none.1 h.admitted).2.2.1

theorem State.Inv.chWrInside {s : State} (h : s.Inv) : s.chWr < s.cfg.chCap :=
  h.chWrPlace ▸ Nat.mod_lt _ h.chCap_pos

/-! ### The channel's operations keep the invariant -/

/-- Storing an accepted byte (R101), whatever the step writes to the trace and the schedule. -/
theorem State.Inv.push {s : State} (h : s.Inv) (b : Byte) (hroom : s.chCnt < s.cfg.chCap)
    (tr : List Event) (sch : List AgentStep) :
    State.Inv { s with
      chBuf := s.chBuf.write s.chWr b, chWr := (s.chWr + 1) % s.cfg.chCap, chCnt := s.chCnt + 1
      trace := tr, schedule := sch } :=
  { h with
    chBufCanonical := Memory.wf_write _ _ h.chBufCanonical
    chBufInside := fun e he => by
      rcases Memory.mem_write he with rfl | he
      · exact h.chWrInside
      · exact h.chBufInside e he
    chCntBound := hroom
    chWrPlace := by simp [h.chWrPlace, Nat.add_assoc]
    chWritten := fun j hj => by
      rcases Nat.lt_succ_iff_lt_or_eq.1 hj with hj | rfl
      · exact Memory.isSome_read_write _ _ _ _ (h.chWritten j hj)
      · simp [← h.chWrPlace] }

/-- Taking the oldest byte (R103). -/
theorem State.Inv.take {s : State} (h : s.Inv) (hc : 0 < s.chCnt) :
    State.Inv { s with chRd := (s.chRd + 1) % s.cfg.chCap, chCnt := s.chCnt - 1 } :=
  { h with
    chRdInside := Nat.mod_lt _ h.chCap_pos
    chCntBound := (Nat.sub_le _ _).trans h.chCntBound
    chWrPlace := by
      have e : s.chRd + 1 + (s.chCnt - 1) = s.chRd + s.chCnt := by omega
      simpa [e] using h.chWrPlace
    chWritten := fun j hj => by
      have hj' : j + 1 < s.chCnt := by simp only at hj; omega
      simpa [Nat.add_comm, Nat.add_left_comm] using h.chWritten (j + 1) hj' }

/-! ### The assembler's operations keep the invariant -/

/-- FA_START and FA_RESTART (R121, R124). -/
theorem State.Inv.clearFrame {s : State} (h : s.Inv) : s.clearFrame.Inv :=
  { h with
    faBufCanonical := Memory.wf_zerosFrom _ _
    faBufInside := fun e he => by simpa using (Memory.mem_zerosFrom he).2
    faCurBound := h.faCap_pos
    waitCursor := fun _ => rfl
    faWritten := fun j hj => absurd hj (Nat.not_lt_zero j) }

/-- Leaving the frame (R126, R130). -/
theorem State.Inv.leaveFrame {s : State} (h : s.Inv) : s.leaveFrame.Inv :=
  { h with
    faCurBound := h.faCap_pos
    waitCursor := fun _ => rfl
    faWritten := fun j hj => absurd hj (Nat.not_lt_zero j) }

/-- A byte stored at the cursor (R123, R125). -/
theorem State.Inv.storeFa {s : State} (h : s.Inv) (b : Byte) :
    State.Inv { s with faBuf := s.faBuf.write s.faCur b } :=
  { h with
    faBufCanonical := Memory.wf_write _ _ h.faBufCanonical
    faBufInside := fun e he => by
      rcases Memory.mem_write he with rfl | he
      · exact h.faCurBound
      · exact h.faBufInside e he
    faWritten := fun j hj => Memory.isSome_read_write _ _ _ _ (h.faWritten j hj) }

/-- FA_DATA (R125): there is room for one more byte. -/
theorem State.Inv.appendFa {s : State} (h : s.Inv) (b : Byte) (hs : s.faState = .collect)
    (hroom : s.faCur < s.cfg.faCap - 1) :
    State.Inv { s with faBuf := s.faBuf.write s.faCur b, faCur := s.faCur + 1 } :=
  { h.storeFa b with
    faCurBound := by show s.faCur + 1 < s.cfg.faCap; omega
    waitCursor := fun hw => by simp [hs] at hw
    faWritten := fun j hj => by
      rcases Nat.lt_succ_iff_lt_or_eq.1 hj with hj | rfl
      · exact (h.storeFa b).faWritten j hj
      · simp }

/-- A hand-off of a diagnostic with a code of R200, and what a dispatch writes beside it. -/
theorem State.Inv.report {s : State} (h : s.Inv) (d : DiagPend) (hd : d.code ∈ diagCodes)
    (g : Gains) (l : Bool) (n : Word32) :
    State.Inv { s with gain := g, led := l, ovfCnt := n, diagPend := d } :=
  { h with diagCode := fun _ => hd }

/-- A dispatch makes a diagnostic, of R200 and other than DIAG_OVERFLOW, which only FA_OVERFLOW makes. -/
theorem dispatchEffect_code (c : Config) (x y : Word32) (g : Gains) (l : Bool) (p : List Byte) :
    (dispatchEffect c x y g l p).2.2.code ∈ diagCodes ∧
      (dispatchEffect c x y g l p).2.2.code ≠ diagOverflow := by
  rcases dispatchEffect_cases c x y g l p with ⟨_, _, _, e⟩ | ⟨_, e⟩ | ⟨code, _, _, hc, e⟩ <;> rw [e]
  · exact (by decide : diagPidOk ∈ diagCodes ∧ diagPidOk ≠ diagOverflow)
  · exact (by decide : diagLedOk ∈ diagCodes ∧ diagLedOk ≠ diagOverflow)
  · exact (by decide : ∀ code ∈ [diagStatus, diagMissingParams, diagUnknownCmd, diagBadArg],
      code ∈ diagCodes ∧ code ≠ diagOverflow) code hc

/-- One assembler step (R120). -/
theorem State.Inv.faStep {s t : State} {b : Byte} (h : s.Inv) (hv : s.diagPend.valid = false)
    (hstep : Machine.faStep b s = .next t) : t.Inv := by
  rcases faStep_cases hv hstep with ⟨-, -, rfl⟩ | ⟨-, -, rfl⟩ | ⟨-, -, -, p, -, rfl⟩ |
    ⟨-, -, -, rfl⟩ | ⟨hs, -, -, hroom, rfl⟩ | ⟨-, -, -, -, rfl⟩
  · exact h.clearFrame
  · exact h
  · exact (h.storeFa NUL).leaveFrame.report _ (dispatchEffect_code ..).1 _ _ s.ovfCnt
  · exact h.clearFrame
  · exact h.appendFa b hs hroom
  · exact h.leaveFrame.report ⟨true, diagOverflow, 0, 0, 0⟩ (by decide) s.gain s.led _

/-! ### Every step keeps the invariant -/

theorem State.Inv.reset {s : State} (h : s.Inv) : s.applyReset.Inv where
  admitted := h.admitted
  chBufCanonical := rfl
  chBufInside := by simp
  faBufCanonical := rfl
  faBufInside := by simp
  chRdInside := h.chCap_pos
  chCntBound := Nat.zero_le _
  chWrPlace := by simp
  chWritten := by simp
  faCurBound := h.faCap_pos
  waitCursor := by simp
  faWritten := by simp
  diagCode := by simp

/-- The invariant does not speak of the schedule. -/
theorem State.Inv.schedule {s : State} (h : s.Inv) (sch : List AgentStep) :
    State.Inv { s with schedule := sch } := { h with }

theorem State.Inv.consume {s t : State} (h : s.Inv) (hstep : execChConsume s = .next t) : t.Inv := by
  rcases execChConsume_cases hstep with ⟨-, rfl⟩ | ⟨hc, hv, -, b, -, hfa⟩
  · exact h
  · exact (h.take hc).faStep hv hfa

/-- Every step keeps the invariant. -/
theorem State.Inv.step {s t : State} (h : s.Inv) (hstep : Machine.step s = .next t) : t.Inv := by
  obtain ⟨-, ⟨-, rfl⟩ | ⟨x, rest, u, -, rfl, hx⟩⟩ := step_cases hstep
  · exact h
  have hu := h.schedule rest
  rcases hx with ⟨b, -, hroom, -, rfl⟩ | ⟨b, -, -, rfl⟩ | ⟨-, hc⟩ | ⟨-, rfl | ⟨-, rfl⟩⟩ | ⟨-, -, rfl⟩ |
    ⟨-, -, rfl⟩ | ⟨r, v, k, -, -, rfl⟩ | ⟨-, rfl⟩
  · exact h.push b hroom _ rest
  · exact { h with }
  · exact hu.consume hc
  · exact hu
  · exact hu.leaveFrame
  · exact hu
  · exact { h with diagCode := fun hv => by cases hv }
  · exact { h with }
  · exact hu.reset

/-! ### From the invariant every operation answers -/

theorem State.Inv.faStep_next {s : State} (h : s.Inv) (hv : s.diagPend.valid = false) (b : Byte) :
    ∃ t, Machine.faStep b s = .next t := by
  unfold Machine.faStep
  rcases decodeFa_cases s.cfg s.faState s.faCur b with ⟨-, rfl, e⟩ | ⟨-, -, e⟩ | ⟨hs, -, e⟩ |
    ⟨-, rfl, -, e⟩ | ⟨-, -, -, -, e⟩ | ⟨-, -, -, -, e⟩ <;> rw [e]
  · exact ⟨_, (performFa_selected hv e : execFaStart s = _)⟩
  · exact ⟨_, (performFa_selected hv e : execFaNoise b s = _)⟩
  · exact ⟨_, execFaEnd_next hs hv h.faCurBound h.faWritten⟩
  · exact ⟨_, (performFa_selected hv e : execFaRestart s = _)⟩
  · refine ⟨{ s with faBuf := s.faBuf.write s.faCur b, faCur := s.faCur + 1 }, ?_⟩
    show execFaData b s = _
    rw [execFaData, performFa_selected hv e, State.writeFa_ok.2 ⟨h.faCurBound, rfl⟩]
  · exact ⟨_, (performFa_selected hv e : execFaOverflow b s = _)⟩

theorem State.Inv.consume_next {s : State} (h : s.Inv) : ∃ t, execChConsume s = .next t := by
  unfold execChConsume
  split
  · rename_i he
    obtain ⟨hc, hv⟩ : 0 < s.chCnt ∧ s.diagPend.valid = false := by
      simpa [State.consumeEnabled] using he
    obtain ⟨b, hb⟩ := Option.isSome_iff_exists.1 (h.chWritten 0 hc)
    rw [Nat.add_zero, Nat.mod_eq_of_lt h.chRdInside] at hb
    rw [State.dequeue_ok.2 ⟨h.chRdInside, hb, rfl⟩]
    exact (h.take hc).faStep_next hv b
  · exact ⟨s, rfl⟩

theorem State.Inv.push_next {s : State} (h : s.Inv) (b : Byte) : ∃ t, execChPush b s = .next t := by
  unfold execChPush
  split
  · rw [State.enqueue_ok.2 ⟨h.chWrInside, rfl⟩]
    exact ⟨_, rfl⟩
  · exact ⟨_, rfl⟩

/-- HOST_READ answers, or refuses a number that is no register (R213). -/
theorem execHostRead_next_or_refused (s : State) (r : Nat) :
    (∃ t, execHostRead r s = .next t) ∨
      (0x0D < r ∧ execHostRead r s = .refused (.notARegister r)) := by
  unfold execHostRead
  rcases hv : s.view r with _ | ⟨v, k⟩
  · refine .inr ⟨Nat.lt_of_not_le fun hr => ?_, rfl⟩
    simpa [hv] using (s.view_isSome r).2 hr
  · exact .inl ⟨_, rfl⟩

/-- Progress: from the invariant a step answers a next state, or refuses a HOST_READ of no register. -/
theorem State.Inv.step_next_or_refused {s : State} (h : s.Inv) :
    (∃ t, Machine.step s = .next t) ∨
      ∃ r, 0x0D < r ∧ Machine.step s = .refused (.notARegister r) := by
  unfold Machine.step
  rw [h.admitted]
  rcases s.schedule with _ | ⟨x, rest⟩
  · exact .inl ⟨s, rfl⟩
  have hu := h.schedule rest
  cases x with
  | producerPush b => exact .inl (hu.push_next b)
  | consumerConsume => exact .inl hu.consume_next
  | consumerTimeout => simp only [decodeStep, exec, execChRxTimeout]; split <;> exact .inl ⟨_, rfl⟩
  | sinkDrain => simp only [decodeStep, exec, execDiagDrain]; split <;> exact .inl ⟨_, rfl⟩
  | hostRead r => exact (execHostRead_next_or_refused _ r).imp_right fun hr => ⟨r, hr⟩
  | hostReset => exact .inl ⟨_, rfl⟩

/-! ### Runs -/

theorem run_succ_next {M : Host.Core} {s t : M.State} (k : Nat) (h : M.step s = .next t) :
    M.run (k + 1) s = M.run k t := by simp only [Host.Core.run, h]

theorem run_succ_refused {M : Host.Core} {s : M.State} {r : M.Refusal} (k : Nat)
    (h : M.step s = .refused r) : M.run (k + 1) s = .refused r := by simp only [Host.Core.run, h]

/-- Settles O49, by induction on the length of the run: progress and the step's keeping of the invariant. -/
theorem runsNeverFault : Obligations.RunsNeverFault := by
  intro k
  induction k with
  | zero => exact fun s _ => .inl ⟨s, rfl⟩
  | succ k ih =>
    intro s h
    rcases h.step_next_or_refused with ⟨t, hstep⟩ | ⟨r, hr, hstep⟩
    · simpa only [SafeRun, run_succ_next (M := core) k hstep] using ih t (h.step hstep)
    · exact .inr ⟨r, hr, run_succ_refused (M := core) k hstep⟩

end Sys2Proof.Machine
end

section
/-! SUPPORT. The scheduled step and its refusals (R5, R18, R205), and the operations that are not enabled or
not selected (R17). -/

namespace Sys2Proof.Machine

/-! ### The step -/

theorem step_of_refusal {s : State} {r : Refusal} (h : configRefusal s.cfg = some r) :
    step s = .refused r := by
  rw [step, h]

/-- Settles O6. -/
theorem stepRunsTheScheduledOperation : Obligations.StepRunsTheScheduledOperation := by
  refine fun s hc => ⟨fun a rest hs => ?_, fun hs => ?_⟩
  · rw [step, hc, hs]
  · rw [step, hc, hs]

/-! ### The conversion's table -/

/-- R152 (4) at a token. -/
theorem numConvLawfulAt_zero {c : Config} {t : Token} (h : numConvLawfulAt c t = true)
    (ht : parseNumber t = none) : numConv c t = 0 := by
  rw [numConvLawfulAt, Bool.and_eq_true] at h
  simpa [ht] using h.1

/-- A token is converted by the table's entry for it, or by the reference. -/
theorem numConv_listed_or_ref (c : Config) (t : Token) :
    (∃ v, (t, v) ∈ c.numConvTable) ∨ numConv c t = numConvRef t := by
  unfold numConv
  rcases hl : c.numConvTable.lookup t with _ | v
  · exact .inr rfl
  · obtain ⟨l₁, l₂, e, -⟩ := List.lookup_eq_some_iff.1 hl
    exact .inl ⟨v, by simp [e]⟩

/-- R152 (4): under a lawful table a token that does not begin with a number is +0.0. -/
theorem numConv_eq_zero_of_lawful {c : Config} {t : Token} (h : numConvLawful c = true)
    (ht : parseNumber t = none) : numConv c t = 0 := by
  rcases numConv_listed_or_ref c t with ⟨v, hv⟩ | e
  · exact numConvLawfulAt_zero (List.all_eq_true.1 h (t, v) hv) ht
  · rw [e, numConvRef, ht]

/-- Settles O7: an admitted configuration has none of the four grounds. -/
theorem stepRefusesInadmissibleConfigurations :
    Obligations.StepRefusesInadmissibleConfigurations := by
  intro s hbad
  rcases hc : configRefusal s.cfg with _ | r
  · obtain ⟨hp, hn, hm, hl⟩ := configRefusal_none.1 hc
    rcases hbad with h | h | h | ⟨t, ht, hne⟩
    · exact absurd hp h
    · omega
    · omega
    · exact absurd (numConv_eq_zero_of_lawful hl ht) hne
  · exact ⟨r, step_of_refusal hc⟩

/-- A table that lists `f` on finitely many tokens gives those tokens `f`'s values. -/
theorem numConv_graph (c : Config) (f : Token → Word32) {ts : List Token} {t : Token} (h : t ∈ ts) :
    numConv { c with numConvTable := ts.map fun u => (u, f u) } t = f t := by
  have hl : (ts.map fun u => (u, f u)).lookup t = some (f t) := List.lookup_graph f h
  simp only [numConv, hl]

/-- A table that lists `f` is lawful when `f` has the properties (4) and (5) of R152. -/
theorem numConvLawful_graph (c : Config) {f : Token → Word32} (ts : List Token)
    (h4 : ∀ t, parseNumber t = none → f t = 0)
    (h5 : ∀ t v, roundTripValues.lookup t = some v → f t = v) :
    numConvLawful { c with numConvTable := ts.map fun u => (u, f u) } = true := by
  refine List.all_eq_true.2 fun e he => ?_
  obtain ⟨t, ht, rfl⟩ := List.mem_map.1 he
  rw [numConvLawfulAt, numConv_graph c f ht, Bool.and_eq_true]
  constructor
  · rcases hp : parseNumber t with _ | _
    · simp [h4 t hp]
    · rfl
  · rcases hl : roundTripValues.lookup t with _ | v
    · rfl
    · simp [h5 t v hl]

/-- A function with the three values of R152 (5) gives every round-trip token its value. -/
theorem roundTrip_of_values {f : Token → Word32} (h1 : f [0x31#8, 0x2E#8, 0x30#8] = 0x3F800000)
    (h05 : f [0x30#8, 0x2E#8, 0x35#8] = 0x3F000000)
    (h001 : f [0x30#8, 0x2E#8, 0x30#8, 0x31#8] = 0x3C23D70A) {t : Token} {v : Word32}
    (hl : roundTripValues.lookup t = some v) : f t = v := by
  obtain ⟨l₁, l₂, e, -⟩ := List.lookup_eq_some_iff.1 hl
  have hm : (t, v) ∈ roundTripValues := by simp [e]
  simp only [roundTripValues, List.mem_cons, Prod.mk.injEq, List.not_mem_nil, or_false] at hm
  rcases hm with ⟨rfl, rfl⟩ | ⟨rfl, rfl⟩ | ⟨rfl, rfl⟩
  · exact h1
  · exact h05
  · exact h001

/-- The tokens of bounded length are finitely many, since the bytes are. -/
theorem exists_list_of_bounded_tokens (len : Nat) :
    ∃ ts : List Token, ∀ t : Token, t.length ≤ len → t ∈ ts :=
  ⟨(List.finite_length_le Byte len).toFinset.toList, fun t ht => by simpa using ht⟩

/-- Settles O40: the table lists the function on the finitely many tokens of bounded length. -/
theorem everyLawfulConversionHasATable : Obligations.EveryLawfulConversionHasATable := by
  intro c f len hc h4 h1 h05 h001
  obtain ⟨ts, hts⟩ := exists_list_of_bounded_tokens len
  obtain ⟨hp, hn, hm, -⟩ := configRefusal_none.1 hc
  have hlaw := numConvLawful_graph c ts h4 fun _ _ => roundTrip_of_values h1 h05 h001
  exact ⟨ts.map fun u => (u, f u), configRefusal_none.2 ⟨hp, hn, hm, hlaw⟩,
    fun t ht => numConv_graph c f (hts t ht)⟩

/-! ### Steps that are not enabled -/

theorem execChConsume_disabled {s : State} (h : s.chCnt = 0 ∨ s.diagPend.valid = true) :
    execChConsume s = .next s := by
  have he : s.consumeEnabled = false := by
    rcases h with h | h <;> simp [State.consumeEnabled, h]
  simp [execChConsume, he]

theorem execChRxTimeout_disabled {s : State}
    (h : s.cfg.rxTimeout = 0 ∨ s.chCnt ≠ 0 ∨ s.diagPend.valid = true) :
    execChRxTimeout s = .next s := by
  have he : s.timeoutEnabled = false := by
    rcases h with h | h | h <;> simp [State.timeoutEnabled, h]
  simp [execChRxTimeout, he]

theorem execDiagDrain_disabled {s : State} (h : s.diagPend.valid = false) :
    execDiagDrain s = .next s := by
  simp [execDiagDrain, State.drainEnabled, h]

/-- Settles O8. -/
theorem disabledStepsChangeNothing : Obligations.DisabledStepsChangeNothing :=
  fun _ => ⟨execChConsume_disabled, execChRxTimeout_disabled, execDiagDrain_disabled⟩

/-! ### Operations that are not selected -/

theorem exec_fa_unselected {s : State} {b : Byte} {i : Instr}
    (h : s.diagPend.valid = true ∨ decodeFa s.cfg s.faState s.faCur b ≠ i)
    (hb : i = .faStart ∨ i = .faEnd ∨ i = .faRestart → b = if i = .faEnd then RB else LB)
    (hi : i ∈ [.faStart, .faNoise b, .faEnd, .faRestart, .faData b, .faOverflow b]) :
    exec i s = .next s := by
  simp only [List.mem_cons, List.not_mem_nil, or_false] at hi
  rcases hi with rfl | rfl | rfl | rfl | rfl | rfl
  · obtain rfl : b = LB := hb (.inl rfl)
    exact (performFa_unselected h : execFaStart s = _)
  · exact (performFa_unselected h : execFaNoise b s = _)
  · obtain rfl : b = RB := hb (.inr (.inl rfl))
    exact (performFa_unselected h : execFaEnd s = _)
  · obtain rfl : b = LB := hb (.inr (.inr rfl))
    exact (performFa_unselected h : execFaRestart s = _)
  · exact (performFa_unselected h : execFaData b s = _)
  · exact (performFa_unselected h : execFaOverflow b s = _)

theorem exec_cmd_unselected {s : State} {i : Instr}
    (h : s.diagPend.valid = true ∨ decodeTokens s.cfg i.tokens ≠ i) (hi : i.tokens ≠ []) :
    exec i s = .next s := by
  cases i with
  | cmdPid p q d => exact (performCmd_unselected h : execCmdPid p q d s = _)
  | cmdLedOn => exact (performCmd_unselected h : execCmdLedOn s = _)
  | cmdLedOff => exact (performCmd_unselected h : execCmdLedOff s = _)
  | cmdLedBadarg a => exact (performCmd_unselected h : execCmdLedBadarg a s = _)
  | cmdStatus => exact (performCmd_unselected h : execCmdStatus s = _)
  | cmdArgcMismatch k args => exact (performCmd_unselected h : execCmdArgcMismatch k args s = _)
  | cmdUnknown kw args => exact (performCmd_unselected h : execCmdUnknown kw args s = _)
  | _ => exact absurd rfl hi

/-- Settles O9. -/
theorem unselectedOperationsChangeNothing : Obligations.UnselectedOperationsChangeNothing :=
  fun _ _ _ => ⟨exec_fa_unselected, exec_cmd_unselected⟩

end Sys2Proof.Machine
end

section
/-! SUPPORT. The two counters across a step (R25, R29): what a step adds to the trace and to DROP_CNT, and when
OVF_CNT counts. -/

namespace Sys2Proof.Machine

/-! ### The drop count -/

/-- How many events are `Dropped`. -/
def droppedCount (events : List Event) : Nat :=
  events.countP fun e => match e with | .dropped _ => true | _ => false

/-- The events a step added, and the drops among them as DROP_CNT counts them. -/
def DropsCounted (s t : State) : Prop :=
  ∃ events, t.trace = s.trace ++ events ∧
    t.dropCnt = s.dropCnt + BitVec.ofNat 32 (droppedCount events)

theorem dropsCounted_of_silent {s t : State} (ht : t.trace = s.trace) (hd : t.dropCnt = s.dropCnt) :
    DropsCounted s t := ⟨[], by simp [ht], by simp [hd, droppedCount]⟩

/-- The CONSUMER leaves the trace and the drop count alone. -/
theorem faStep_trace_dropCnt {s t : State} {b : Byte} (hv : s.diagPend.valid = false)
    (h : faStep b s = .next t) : t.trace = s.trace ∧ t.dropCnt = s.dropCnt := by
  rcases faStep_cases hv h with ⟨-, -, rfl⟩ | ⟨-, -, rfl⟩ | ⟨-, -, -, p, -, rfl⟩ | ⟨-, -, -, rfl⟩ |
    ⟨-, -, -, -, rfl⟩ | ⟨-, -, -, -, rfl⟩ <;> exact ⟨rfl, rfl⟩

theorem execChConsume_trace_dropCnt {s t : State} (h : execChConsume s = .next t) :
    t.trace = s.trace ∧ t.dropCnt = s.dropCnt := by
  rcases execChConsume_cases h with ⟨-, rfl⟩ | ⟨-, hv, -, b, -, hfa⟩
  · exact ⟨rfl, rfl⟩
  · have hframe := faStep_trace_dropCnt (by exact hv) hfa
    exact hframe

/-- DROP_CNT counts the Dropped events across every step but RESET. -/
theorem step_dropsCounted {s t : State} (h : step s = .next t)
    (hr : s.schedule.head? ≠ some .hostReset) : DropsCounted s t := by
  obtain ⟨-, ⟨-, rfl⟩ | ⟨x, rest, u, hs, rfl, hx⟩⟩ := step_cases h
  · exact dropsCounted_of_silent rfl rfl
  rcases hx with ⟨b, -, -, -, rfl⟩ | ⟨b, -, -, rfl⟩ | ⟨-, hc⟩ | ⟨-, rfl | ⟨-, rfl⟩⟩ | ⟨-, -, rfl⟩ |
    ⟨-, -, rfl⟩ | ⟨r, v, k, -, -, rfl⟩ | ⟨rfl, -⟩
  · exact ⟨[.accepted b], rfl, by simp [droppedCount]⟩
  · exact ⟨[.dropped b], rfl, rfl⟩
  · obtain ⟨ht, hd⟩ := execChConsume_trace_dropCnt hc
    exact dropsCounted_of_silent ht hd
  · exact dropsCounted_of_silent rfl rfl
  · exact dropsCounted_of_silent rfl rfl
  · exact dropsCounted_of_silent rfl rfl
  · exact ⟨[.diag _ _ _ _], rfl, by simp [droppedCount]⟩
  · exact ⟨[.read r v], rfl, by simp [droppedCount]⟩
  · exact absurd (by simp [hs]) hr

/-! ### The overflow count -/

/-- DIAG_OVERFLOW is pending in `t` and nothing was in `s`. -/
def MakesOverflow (s t : State) : Prop :=
  s.diagPend.valid = false ∧ t.diagPend.valid = true ∧ t.diagPend.code = diagOverflow

/-- OVF_CNT counts exactly when DIAG_OVERFLOW is made. -/
def OverflowCounted (s t : State) : Prop :=
  (t.ovfCnt = s.ovfCnt ∧ ¬ MakesOverflow s t) ∨ (t.ovfCnt = bump s.ovfCnt ∧ MakesOverflow s t)

theorem bump_ne (c : Word32) : bump c ≠ c := by
  unfold bump; bv_omega

theorem OverflowCounted.iff {s t : State} (h : OverflowCounted s t) :
    (t.ovfCnt = s.ovfCnt ∨ t.ovfCnt = bump s.ovfCnt) ∧
      (t.ovfCnt = bump s.ovfCnt ↔ MakesOverflow s t) := by
  rcases h with ⟨ho, hm⟩ | ⟨ho, hm⟩
  · exact ⟨.inl ho, fun e => absurd (e.symm.trans ho) (bump_ne _), fun m => absurd m hm⟩
  · exact ⟨.inr ho, fun _ => hm, fun _ => ho⟩

/-- A step that leaves the overflow count and makes no diagnostic. -/
theorem overflowCounted_of_noDiag {s t : State} (ho : t.ovfCnt = s.ovfCnt)
    (hd : t.diagPend.valid = true → s.diagPend.valid = true) : OverflowCounted s t :=
  .inl ⟨ho, fun ⟨hs, ht, _⟩ => by simp [hd ht] at hs⟩

theorem faStep_overflowCounted {s t : State} {b : Byte} (hv : s.diagPend.valid = false)
    (h : faStep b s = .next t) : OverflowCounted s t := by
  rcases faStep_cases hv h with ⟨-, -, rfl⟩ | ⟨-, -, rfl⟩ | ⟨-, -, -, p, -, rfl⟩ | ⟨-, -, -, rfl⟩ |
    ⟨-, -, -, -, rfl⟩ | ⟨-, -, -, -, rfl⟩
  · exact overflowCounted_of_noDiag rfl id
  · exact overflowCounted_of_noDiag rfl id
  · exact .inl ⟨rfl, fun ⟨_, _, hcode⟩ => (dispatchEffect_code ..).2 hcode⟩
  · exact overflowCounted_of_noDiag rfl id
  · exact overflowCounted_of_noDiag rfl id
  · exact .inr ⟨rfl, hv, rfl, rfl⟩

theorem execChConsume_overflowCounted {s t : State} (h : execChConsume s = .next t) :
    OverflowCounted s t := by
  rcases execChConsume_cases h with ⟨-, rfl⟩ | ⟨-, hv, -, b, -, hfa⟩
  · exact overflowCounted_of_noDiag rfl id
  · have hcount := faStep_overflowCounted (by exact hv) hfa
    exact hcount

/-- OVF_CNT counts the overflows across every step but RESET. -/
theorem step_overflowCounted {s t : State} (h : step s = .next t)
    (hr : s.schedule.head? ≠ some .hostReset) : OverflowCounted s t := by
  obtain ⟨-, ⟨-, rfl⟩ | ⟨x, rest, u, hs, rfl, hx⟩⟩ := step_cases h
  · exact overflowCounted_of_noDiag rfl id
  rcases hx with ⟨b, -, -, -, rfl⟩ | ⟨b, -, -, rfl⟩ | ⟨-, hc⟩ | ⟨-, rfl | ⟨-, rfl⟩⟩ | ⟨-, -, rfl⟩ |
    ⟨-, -, rfl⟩ | ⟨r, v, k, -, -, rfl⟩ | ⟨rfl, -⟩
  · exact overflowCounted_of_noDiag rfl id
  · exact overflowCounted_of_noDiag rfl id
  · have hcount := execChConsume_overflowCounted hc
    exact hcount
  · exact overflowCounted_of_noDiag rfl id
  · exact overflowCounted_of_noDiag rfl id
  · exact overflowCounted_of_noDiag rfl id
  · exact overflowCounted_of_noDiag rfl fun hv => by cases hv
  · exact overflowCounted_of_noDiag rfl id
  · exact absurd (by simp [hs]) hr

/-- Settles O53. -/
theorem countersCountTheirEvents : Obligations.CountersCountTheirEvents :=
  fun _ _ h hr => ⟨step_dropsCounted h hr, (step_overflowCounted h hr).iff⟩

end Sys2Proof.Machine
end

section
/-! SUPPORT. The statements about the whole state: the invariant, what each agent's step leaves alone (R21 to R33,
R204), the trace, and the stuck CONSUMER (R236). -/

namespace Sys2Proof.Machine

/-- Settles O48: `State.Inv.step` goes through what a step can do. -/
theorem everyStepKeepsTheMachineInvariant : Obligations.EveryStepKeepsTheMachineInvariant :=
  fun _ _ h hstep => h.step hstep

/-! ### What each agent's step leaves alone -/

/-- Only the CONSUMER's elements differ: the read pointer, the count, the frame, OVF_CNT, the gains, the LED and
the diagnostic register. -/
def ConsumerFrame (s t : State) : Prop :=
  t = { s with
    chRd := t.chRd, chCnt := t.chCnt, faState := t.faState, faCur := t.faCur
    faBuf := t.faBuf, ovfCnt := t.ovfCnt, gain := t.gain, led := t.led
    diagPend := t.diagPend }

/-- What the chosen step leaves of `s`, with the choice already off the schedule; RESET is given as the state
it sets (R230). -/
def StepFrame (s t : State) : AgentStep → Prop
  | .producerPush _ => t = { s with
      chBuf := t.chBuf, chWr := t.chWr, chCnt := t.chCnt, dropCnt := t.dropCnt, trace := t.trace }
  | .consumerConsume => ConsumerFrame s t
  | .consumerTimeout => ConsumerFrame s t
  | .sinkDrain => t = { s with
      diagPend := { s.diagPend with valid := t.diagPend.valid }, trace := t.trace }
  | .hostRead _ => t = { s with trace := t.trace, draws := t.draws }
  | .hostReset => t = s.applyReset

theorem faStep_frame {s t : State} {b : Byte} (hv : s.diagPend.valid = false)
    (h : faStep b s = .next t) : ConsumerFrame s t := by
  rcases faStep_cases hv h with ⟨-, -, rfl⟩ | ⟨-, -, rfl⟩ | ⟨-, -, -, p, -, rfl⟩ | ⟨-, -, -, rfl⟩ |
    ⟨-, -, -, -, rfl⟩ | ⟨-, -, -, -, rfl⟩ <;> rfl

theorem ConsumerFrame.trans {s u t : State} (hu : ConsumerFrame s u) (ht : ConsumerFrame u t) :
    ConsumerFrame s t := by
  unfold ConsumerFrame at hu
  rw [hu] at ht
  exact ht

/-- A CH_CONSUME is the dequeue followed by the assembler step. -/
theorem execChConsume_frame {s t : State} (h : execChConsume s = .next t) : ConsumerFrame s t := by
  rcases execChConsume_cases h with ⟨-, rfl⟩ | ⟨-, hv, -, b, -, hfa⟩
  · rfl
  · have hdequeue : ConsumerFrame s
        { s with chRd := (s.chRd + 1) % s.cfg.chCap, chCnt := s.chCnt - 1 } := rfl
    exact hdequeue.trans (faStep_frame hv hfa)

theorem step_frame {s t : State} {x : AgentStep} {rest : List AgentStep} (h : step s = .next t)
    (hs : s.schedule = x :: rest) : StepFrame { s with schedule := rest } t x := by
  obtain ⟨-, ⟨hnil, -⟩ | ⟨y, l, u, hyl, rfl, hy⟩⟩ := step_cases h
  · simp [hnil] at hs
  obtain ⟨rfl, rfl⟩ : y = x ∧ l = rest := by simpa [hyl] using hs
  rcases hy with ⟨b, rfl, -, -, rfl⟩ | ⟨b, rfl, -, rfl⟩ | ⟨rfl, hc⟩ | ⟨rfl, rfl | ⟨-, rfl⟩⟩ |
    ⟨rfl, -, rfl⟩ | ⟨rfl, -, rfl⟩ | ⟨r, v, k, rfl, -, rfl⟩ | ⟨rfl, rfl⟩
  · rfl
  · rfl
  · exact execChConsume_frame hc
  all_goals rfl

/-- Settles O52: the frame of the step that was chosen. -/
theorem agentsWriteOnlyTheirOwnElements : Obligations.AgentsWriteOnlyTheirOwnElements := by
  intro s t x rest h hs
  have hframe := step_frame h hs
  cases x with
  | producerPush b => exact ⟨fun _ => hframe, nofun, nofun, nofun⟩
  | consumerConsume => exact ⟨nofun, fun _ => hframe, nofun, nofun⟩
  | consumerTimeout => exact ⟨nofun, fun _ => hframe, nofun, nofun⟩
  | sinkDrain => exact ⟨nofun, nofun, fun _ => hframe, nofun⟩
  | hostRead r => exact ⟨nofun, nofun, nofun, fun _ _ => hframe⟩
  | hostReset => exact ⟨nofun, nofun, nofun, nofun⟩

/-- No agent's frame lets the configuration change. -/
theorem StepFrame.cfg_eq {s t : State} {x : AgentStep} (h : StepFrame s t x) : t.cfg = s.cfg := by
  cases x <;> exact (congrArg State.cfg h).trans rfl

/-- Settles O51. -/
theorem noStepWritesTheConfiguration : Obligations.NoStepWritesTheConfiguration := by
  intro s t h
  rcases hs : s.schedule with _ | ⟨x, rest⟩
  · obtain ⟨-, ⟨-, rfl⟩ | ⟨y, l, -, hyl, -⟩⟩ := step_cases h
    · rfl
    · simp [hs] at hyl
  · exact (step_frame h hs).cfg_eq

/-! ### The trace -/

/-- A step adds no event or one. -/
theorem step_trace {s t : State} (h : step s = .next t) :
    t.trace = s.trace ∨ ∃ e, t.trace = s.trace ++ [e] := by
  obtain ⟨-, ⟨-, rfl⟩ | ⟨x, rest, u, -, rfl, hx⟩⟩ := step_cases h
  · exact .inl rfl
  rcases hx with ⟨b, -, -, -, rfl⟩ | ⟨b, -, -, rfl⟩ | ⟨-, hc⟩ | ⟨-, rfl | ⟨-, rfl⟩⟩ | ⟨-, -, rfl⟩ |
    ⟨-, -, rfl⟩ | ⟨r, v, k, -, -, rfl⟩ | ⟨-, rfl⟩
  · exact .inr ⟨.accepted b, rfl⟩
  · exact .inr ⟨.dropped b, rfl⟩
  · exact .inl (execChConsume_trace_dropCnt hc).1
  · exact .inl rfl
  · exact .inl rfl
  · exact .inl rfl
  · exact .inr ⟨_, rfl⟩
  · exact .inr ⟨.read r v, rfl⟩
  · exact .inl rfl

/-- Settles O54. -/
theorem traceOnlyGrows : Obligations.TraceOnlyGrows := by
  intro s t h
  rcases step_trace h with e | ⟨ev, e⟩ <;> simp [e]

/-! ### The stuck CONSUMER -/

/-- While a diagnostic is pending a CONSUMER step takes only its choice off the schedule (R103, R104). -/
theorem step_consumer_pending {s : State} {x : AgentStep} {rest : List AgentStep}
    (hc : configRefusal s.cfg = none) (hv : s.diagPend.valid = true) (hx : x.agent = .consumer)
    (hs : s.schedule = x :: rest) : step s = .next { s with schedule := rest } := by
  rw [(stepRunsTheScheduledOperation s hc).1 x rest hs]
  cases x with
  | consumerConsume => exact execChConsume_disabled (.inr hv)
  | consumerTimeout => exact execChRxTimeout_disabled (.inr (.inr hv))
  | _ => cases hx

/-- Settles O43, by induction on the CONSUMER's steps. -/
theorem consumerIsStuckWhileADiagnosticPends :
    Obligations.ConsumerIsStuckWhileADiagnosticPends := by
  intro s xs rest hc hv hxs hs
  induction xs generalizing s with
  | nil => obtain rfl : s.schedule = rest := hs; rfl
  | cons x xs ih =>
    have hstep := step_consumer_pending hc hv (hxs x List.mem_cons_self) hs
    rw [List.length_cons, run_succ_next (M := core) xs.length hstep]
    exact ih _ hc hv (fun y hy => hxs y (List.mem_cons_of_mem _ hy)) rfl

end Sys2Proof.Machine
end

section
/-! SUPPORT. The status view register by register, and HOST_READ (R37, R213). -/

namespace Sys2Proof.Machine

/-! ### The registers (R37) -/

@[simp] theorem State.view_chCnt (s : State) :
    s.view 0x00 = some (BitVec.ofNat 32 s.chCnt, 0) := rfl
@[simp] theorem State.view_dropCnt (s : State) : s.view 0x01 = some (s.dropCnt, 0) := rfl
@[simp] theorem State.view_faState (s : State) :
    s.view 0x02 = some (if s.faState = .collect then 1 else 0, 0) := by
  simp only [State.view]
  cases s.faState <;> rfl
@[simp] theorem State.view_faCur (s : State) :
    s.view 0x03 = some (BitVec.ofNat 32 s.faCur, 0) := rfl
@[simp] theorem State.view_ovfCnt (s : State) : s.view 0x04 = some (s.ovfCnt, 0) := rfl
@[simp] theorem State.view_gainP (s : State) : s.view 0x05 = some (s.gain.p, 0) := rfl
@[simp] theorem State.view_gainI (s : State) : s.view 0x06 = some (s.gain.i, 0) := rfl
@[simp] theorem State.view_gainD (s : State) : s.view 0x07 = some (s.gain.d, 0) := rfl
@[simp] theorem State.view_led (s : State) :
    s.view 0x08 = some (if s.led then 1 else 0, 0) := rfl
@[simp] theorem State.view_diagValid (s : State) :
    s.view 0x09 = some (if s.diagPend.valid then 1 else 0, 0) := rfl

/-- `DIAG_CODE` has 8 meaningful bits, pending or not. -/
theorem State.view_diagCode_lt {s : State} {v : Word32} {k : Nat}
    (h : s.view 0x0A = some (v, k)) : v.toNat < 256 := by
  simp only [State.view, Option.some.injEq, Prod.mk.injEq] at h
  obtain ⟨rfl, -⟩ := h
  rw [BitVec.toNat_setWidth_of_le (by decide)]
  exact BitVec.isLt _

/-! ### HOST_READ -/

theorem execHostRead_of_view {s : State} {r : Nat} {v : Word32} {k : Nat}
    (h : s.view r = some (v, k)) : execHostRead r s =
      .next { s with trace := s.trace ++ [.read r v], draws := s.draws + k } := by
  rw [execHostRead, h]; rfl

/-- R213: the numbers above 0x0D are no registers. -/
theorem execHostRead_refused {s : State} {r : Nat} (hr : 0x0D < r) :
    execHostRead r s = .refused (.notARegister r) := by
  have hnone : s.view r = none := by
    rw [← Option.not_isSome_iff_eq_none, s.view_isSome]
    exact Nat.not_le_of_lt hr
  rw [execHostRead, hnone]

/-- Settles O44: a number up to 0x0D has a value in the status view, and each register's value is R37's. -/
theorem hostReadEmitsTheStatusValue : Obligations.HostReadEmitsTheStatusValue := by
  refine fun s r => ⟨fun hr => ?_, execHostRead_refused⟩
  obtain ⟨⟨v, k⟩, hview⟩ := Option.isSome_iff_exists.1 ((s.view_isSome r).2 hr)
  have value : ∀ {w n}, s.view r = some (w, n) → v = w := fun h => by
    rw [hview] at h; cases h; rfl
  refine ⟨_, v, execHostRead_of_view hview, rfl, ?_⟩
  and_intros
  all_goals rintro rfl
  · exact value s.view_chCnt
  · exact value s.view_dropCnt
  · exact value s.view_faState
  · exact value s.view_faCur
  · exact value s.view_ovfCnt
  · exact value s.view_gainP
  · exact value s.view_gainI
  · exact value s.view_gainD
  · exact value s.view_led
  · exact value s.view_diagValid
  · exact ⟨State.view_diagCode_lt hview, fun hv => value (State.view_pending hv).1⟩
  · exact fun hv => value (State.view_pending hv).2.1
  · exact fun hv => value (State.view_pending hv).2.2.1
  · exact fun hv => value (State.view_pending hv).2.2.2

end Sys2Proof.Machine
end

section
/-! SUPPORT. The channel as a list (R24, R100): what a push and a take do to the queue, and the order of its bytes
along a run (R59, R105). -/

namespace Sys2Proof.Machine

/-! ### The queue -/

@[simp] theorem State.length_queue (s : State) : s.queue.length = s.chCnt := by simp [State.queue]

/-- CH_PUSH stores outside the unread part and lengthens that part by one (R101). -/
theorem State.Inv.queue_push {s : State} (h : s.Inv) (b : Byte) (hroom : s.chCnt < s.cfg.chCap) :
    State.queue { s with chBuf := s.chBuf.write s.chWr b, chCnt := s.chCnt + 1 } = s.queue ++ [b] := by
  have unread_ne : ∀ j < s.chCnt, (s.chRd + j) % s.cfg.chCap ≠ s.chWr := fun j hj e => by
    have hmod := Nat.ModEq.add_left_cancel' s.chRd (e.trans h.chWrPlace)
    have hsame := Nat.ModEq.eq_of_lt_of_lt hmod (hj.trans hroom) hroom
    omega
  simp only [State.queue, List.range_succ, List.map_append, List.map_singleton]
  congr 1
  · refine List.map_congr_left fun j hj => ?_
    rw [Memory.read_write_ne _ _ (unread_ne j (List.mem_range.1 hj))]
  · simp [← h.chWrPlace]

/-- CH_CONSUME's dequeue takes the head (R103). -/
theorem State.queue_take {s : State} {b : Byte} (hc : 0 < s.chCnt) (hrd : s.chRd < s.cfg.chCap)
    (hb : s.chBuf.read s.chRd = some b) :
    s.queue = b :: State.queue { s with chRd := (s.chRd + 1) % s.cfg.chCap, chCnt := s.chCnt - 1 } := by
  obtain ⟨n, hn⟩ := Nat.exists_eq_succ_of_ne_zero hc.ne'
  simp only [State.queue, hn, List.range_succ_eq_map, List.map_cons, List.map_map]
  congr 1
  · simp [Nat.mod_eq_of_lt hrd, hb]
  · refine List.map_congr_left fun j _ => ?_
    simp [Nat.add_comm, Nat.add_left_comm]

/-! ### CH_CONSUME on the queue -/

/-- An assembler step writes only the frame, OVF_CNT, the gains, the LED and the diagnostic register. -/
theorem faStep_writes {s t : State} {b : Byte} (hv : s.diagPend.valid = false)
    (h : faStep b s = .next t) : t = { s with
      faState := t.faState, faCur := t.faCur, faBuf := t.faBuf, ovfCnt := t.ovfCnt
      gain := t.gain, led := t.led, diagPend := t.diagPend } := by
  rcases faStep_cases hv h with ⟨-, -, rfl⟩ | ⟨-, -, rfl⟩ | ⟨-, -, -, p, -, rfl⟩ | ⟨-, -, -, rfl⟩ |
    ⟨-, -, -, -, rfl⟩ | ⟨-, -, -, -, rfl⟩ <;> rfl

/-- What an enabled CH_CONSUME leaves of the channel: the queue without its head, in the same storage. -/
theorem execChConsume_takes {s t : State} (hc : 0 < s.chCnt) (hv : s.diagPend.valid = false)
    (h : execChConsume s = .next t) :
    ∃ b, s.queue = b :: t.queue ∧ t.chCnt = s.chCnt - 1 ∧ t.chRd = (s.chRd + 1) % s.cfg.chCap ∧
      t.chWr = s.chWr ∧ t.chBuf = s.chBuf := by
  rcases execChConsume_cases h with ⟨hdis, -⟩ | ⟨-, -, hrd, b, hb, hfa⟩
  · simp [hc.ne', hv] at hdis
  · have hframe := faStep_writes (by exact hv) hfa
    refine ⟨b, ?_, congrArg State.chCnt hframe, congrArg State.chRd hframe,
      (congrArg State.chWr hframe).trans rfl, (congrArg State.chBuf hframe).trans rfl⟩
    rw [State.queue_take hc hrd hb]
    exact congrArg (b :: ·) (congrArg State.queue hframe).symm

/-- Settles O12: progress gives the next state, and an enabled CH_CONSUME takes the head. -/
theorem consumeCompletesAndRemovesTheOldestByte :
    Obligations.ConsumeCompletesAndRemovesTheOldestByte := by
  intro s h hc hv
  obtain ⟨t, ht⟩ := h.consume_next
  obtain ⟨b, hqueue, hcnt, hrd, hwr, hbuf⟩ := execChConsume_takes hc hv ht
  obtain ⟨htrace, hdrop⟩ := execChConsume_trace_dropCnt ht
  exact ⟨t, b, ht, hqueue, hcnt, hrd, hwr, hbuf, hdrop, htrace⟩

/-! ### The order of the bytes across a step -/

/-- The bytes in the channel and the byte the step accepts are, in order, the byte it delivers and the bytes
left. -/
def OrderKept (s t : State) : Prop := s.queue ++ s.nextPushed = s.nextDelivered ++ t.queue

theorem State.nextPushed_push {s : State} {b : Byte} {rest : List AgentStep}
    (hs : s.schedule = .producerPush b :: rest) :
    s.nextPushed = if s.chCnt < s.cfg.chCap then [b] else [] := by
  simp [State.nextPushed, hs, State.acceptsPush]

theorem State.nextDelivered_consume {s : State} {rest : List AgentStep}
    (hs : s.schedule = .consumerConsume :: rest) :
    s.nextDelivered =
      if 0 < s.chCnt ∧ s.diagPend.valid = false then s.queue.take 1 else [] := by
  simp [State.nextDelivered, hs, State.consumeEnabled]

/-- Only a push is accepted. -/
theorem State.nextPushed_other {s : State} (h : ∀ b, s.schedule.head? ≠ some (.producerPush b)) :
    s.nextPushed = [] := by
  unfold State.nextPushed
  split
  · rename_i hs; simp [hs] at h
  · rfl

/-- Only a consume delivers. -/
theorem State.nextDelivered_other {s : State} (h : s.schedule.head? ≠ some .consumerConsume) :
    s.nextDelivered = [] := by
  unfold State.nextDelivered
  split
  · rename_i hs; simp [hs] at h
  · rfl

/-- A step that is neither a push nor a consume. -/
theorem orderKept_of_other {s t : State} (hp : ∀ b, s.schedule.head? ≠ some (.producerPush b))
    (hd : s.schedule.head? ≠ some .consumerConsume) (hq : t.queue = s.queue) : OrderKept s t := by
  simp [OrderKept, State.nextPushed_other hp, State.nextDelivered_other hd, hq]

theorem execChConsume_orderKept {s t : State} {rest : List AgentStep}
    (hs : s.schedule = .consumerConsume :: rest)
    (h : execChConsume { s with schedule := rest } = .next t) : OrderKept s t := by
  have hp : s.nextPushed = [] := State.nextPushed_other (by simp [hs])
  have hd := State.nextDelivered_consume hs
  by_cases hen : 0 < s.chCnt ∧ s.diagPend.valid = false
  · obtain ⟨b, hqueue, -⟩ := execChConsume_takes (by exact hen.1) (by exact hen.2) h
    replace hqueue : s.queue = b :: t.queue := hqueue
    simp [OrderKept, hp, hd, hen, hqueue]
  · rcases execChConsume_cases h with ⟨-, rfl⟩ | ⟨hc, hv, -⟩
    · rw [OrderKept, hp, hd, if_neg hen]
      exact List.append_nil _
    · exact absurd ⟨hc, hv⟩ hen

/-- Every step but RESET keeps the order. -/
theorem State.Inv.step_orderKept {s t : State} (h : s.Inv) (hr : s.schedule.head? ≠ some .hostReset)
    (hstep : Machine.step s = .next t) : OrderKept s t := by
  obtain ⟨-, ⟨hs, rfl⟩ | ⟨x, rest, u, hs, rfl, hx⟩⟩ := step_cases hstep
  · exact orderKept_of_other (by simp [hs]) (by simp [hs]) rfl
  rcases hx with ⟨b, rfl, hroom, -, rfl⟩ | ⟨b, rfl, hfull, rfl⟩ | ⟨rfl, hc⟩ | ⟨rfl, rfl | ⟨-, rfl⟩⟩ |
    ⟨rfl, -, rfl⟩ | ⟨rfl, -, rfl⟩ | ⟨r, v, k, rfl, -, rfl⟩ | ⟨rfl, -⟩
  · rw [OrderKept, State.nextPushed_push hs, if_pos hroom, State.nextDelivered_other (by simp [hs])]
    exact (h.queue_push b hroom).symm
  · rw [OrderKept, State.nextPushed_push hs, if_neg hfull, State.nextDelivered_other (by simp [hs])]
    exact List.append_nil _
  · exact execChConsume_orderKept hs hc
  · exact orderKept_of_other (by simp [hs]) (by simp [hs]) rfl
  · exact orderKept_of_other (by simp [hs]) (by simp [hs]) rfl
  · exact orderKept_of_other (by simp [hs]) (by simp [hs]) rfl
  · exact orderKept_of_other (by simp [hs]) (by simp [hs]) rfl
  · exact orderKept_of_other (by simp [hs]) (by simp [hs]) rfl
  · exact absurd (by simp [hs]) hr

/-! ### The order of the bytes along a run -/

/-- No agent's frame lets the rest of the schedule change. -/
theorem StepFrame.schedule_eq {s t : State} {x : AgentStep} (h : StepFrame s t x) :
    t.schedule = s.schedule := by
  cases x <;> exact (congrArg State.schedule h).trans rfl

/-- A step takes its choice off the schedule (R205). -/
theorem step_schedule {s t : State} (h : step s = .next t) : t.schedule = s.schedule.tail := by
  rcases hs : s.schedule with _ | ⟨x, rest⟩
  · obtain ⟨-, ⟨-, rfl⟩ | ⟨y, l, -, hyl, -⟩⟩ := step_cases h
    · exact hs
    · simp [hs] at hyl
  · exact (step_frame h hs).schedule_eq

/-- A run's first step and the rest of the run. -/
theorem runLog_succ {k : Nat} {s t : State} {accepted delivered : List Byte}
    (h : runLog (k + 1) s = some (accepted, delivered, t)) :
    ∃ u accepted' delivered', step s = .next u ∧
      runLog k u = some (accepted', delivered', t) ∧
      accepted = s.nextPushed ++ accepted' ∧ delivered = s.nextDelivered ++ delivered' := by
  unfold runLog at h
  split at h
  · rename_i u hstep
    obtain ⟨⟨a, d, v⟩, hrun, e⟩ := Option.map_eq_some_iff.1 h
    cases e
    exact ⟨u, a, d, hstep, hrun, rfl, rfl⟩
  · cases h
  · cases h

/-- A run without RESET keeps the order, and the invariant. -/
theorem State.Inv.runLog_order {k : Nat} {s t : State} {accepted delivered : List Byte} (h : s.Inv)
    (hr : .hostReset ∉ s.schedule) (hrun : runLog k s = some (accepted, delivered, t)) :
    s.queue ++ accepted = delivered ++ t.queue ∧ t.Inv := by
  induction k generalizing s accepted delivered with
  | zero => cases hrun; exact ⟨by simp, h⟩
  | succ k ih =>
    obtain ⟨u, accepted', delivered', hstep, hrest, rfl, rfl⟩ := runLog_succ hrun
    have hfirst : OrderKept s u := h.step_orderKept (fun e => hr (List.mem_of_head? e)) hstep
    have hru : .hostReset ∉ u.schedule := fun hm =>
      hr (List.mem_of_mem_tail (step_schedule hstep ▸ hm))
    obtain ⟨horder, ht⟩ := ih (h.step hstep) hru hrest
    refine ⟨?_, ht⟩
    calc s.queue ++ (s.nextPushed ++ accepted')
        = s.nextDelivered ++ (u.queue ++ accepted') := by
          rw [← List.append_assoc, hfirst, List.append_assoc]
      _ = (s.nextDelivered ++ delivered') ++ t.queue := by rw [horder, List.append_assoc]

/-- Settles O15, by induction on the length of the run: each step keeps the order of the bytes. -/
theorem channelDeliversInAcceptedOrder : Obligations.ChannelDeliversInAcceptedOrder := by
  intro k s t accepted delivered h hr hrun
  obtain ⟨horder, ht⟩ := h.runLog_order hr hrun
  exact ⟨horder, t.length_queue, ht.chCntBound⟩

end Sys2Proof.Machine
end

section
/-! SUPPORT. The codes of the operations at the three levels (R5, R72, R73, R75, R76): each row of R73 as an
equation of the assembler decoder, the tokenizer on joined tokens, and the dispatcher's check by operation. -/

namespace Sys2Proof

/-! ### The rows of R73, as equations of the decoder -/

section Rows

variable {c : Config} {cur : Nat} {b : Byte}

theorem decodeFa_start : decodeFa c .wait cur LB = .faStart := by simp [decodeFa]

theorem decodeFa_noise (hb : b ≠ LB) : decodeFa c .wait cur b = .faNoise b := if_neg hb

theorem decodeFa_end : decodeFa c .collect cur RB = .faEnd := by simp [decodeFa]

theorem decodeFa_restart (hp : c.lbracketPolicy = .restart) :
    decodeFa c .collect cur LB = .faRestart := by
  have hne : LB ≠ RB := by decide
  simp [decodeFa, hne, hp]

/-- A byte that neither ends the frame nor restarts it is data while there is room. -/
theorem decodeFa_data (he : b ≠ RB) (hr : ¬ (b = LB ∧ c.lbracketPolicy = .restart))
    (hroom : cur < c.faCap - 1) : decodeFa c .collect cur b = .faData b := by
  rw [decodeFa, if_neg he, if_neg hr, if_pos hroom]

/-- And it overflows where there is none. -/
theorem decodeFa_overflow (he : b ≠ RB) (hr : ¬ (b = LB ∧ c.lbracketPolicy = .restart))
    (hfull : ¬ cur < c.faCap - 1) : decodeFa c .collect cur b = .faOverflow b := by
  rw [decodeFa, if_neg he, if_neg hr, if_neg hfull]

end Rows

@[simp] theorem decodeFaWord_faWord (c : Config) (cur : Nat) (st : FaState) (b : Byte) :
    decodeFaWord c cur (faWord st b) = decodeFa c st cur b := by
  rw [decodeFaWord, wordState_faWord, wordByte_faWord]

/-! ### The tokenizer on joined tokens (R75, R151) -/

theorem tokens_append_comma {t : Token} (ht : COMMA ∉ t) (p : List Byte) :
    tokens (t ++ COMMA :: p) = t :: tokens p := by
  induction t with
  | nil => exact tokens_comma p
  | cons b t ih =>
    obtain ⟨hb, ht⟩ := List.ne_and_not_mem_of_not_mem_cons ht
    rw [List.cons_append, tokens_cons_of_ne hb.symm, ih ht, consFirst_cons]

theorem tokens_of_no_comma {t : Token} (ht : COMMA ∉ t) : tokens t = [t] := by
  induction t with
  | nil => rfl
  | cons b t ih =>
    obtain ⟨hb, ht⟩ := List.ne_and_not_mem_of_not_mem_cons ht
    rw [tokens_cons_of_ne hb.symm, ih ht, consFirst_cons]

/-- Splitting at the commas undoes the joining. -/
theorem tokens_joinTokens {ts : List Token} (hne : ts ≠ []) (hts : ∀ t ∈ ts, COMMA ∉ t) :
    tokens (joinTokens ts) = ts := by
  induction ts with
  | nil => exact absurd rfl hne
  | cons t ts ih =>
    have ht := hts t List.mem_cons_self
    cases ts with
    | nil => exact tokens_of_no_comma ht
    | cons u ts =>
      rw [joinTokens, tokens_append_comma ht,
        ih (List.cons_ne_nil u ts) fun x hx => hts x (List.mem_cons_of_mem t hx)]

theorem comma_notMem_of_tokenOk {c : Config} {t : Token} (h : tokenOk c t = true) : COMMA ∉ t := by
  intro hm
  simpa using List.all_eq_true.1 h COMMA hm

/-- The payload of tokens that can stand in one is decoded by its tokens. -/
theorem decode_payload_joinTokens {c : Config} {ts : List Token} (cur : Nat) (hne : ts ≠ [])
    (h : tokensOk c ts = true) :
    decode c cur (.payload (joinTokens ts)) = decodeTokens c ts := by
  have hts : ∀ t ∈ ts, COMMA ∉ t := fun t ht =>
    comma_notMem_of_tokenOk (List.all_eq_true.1 (Bool.and_eq_true_iff.1 h).1 t ht)
  rw [decode, decodePayload, tokens_joinTokens hne hts]

/-! ### The dispatcher's check by operation (R76, R155) -/

section Check

variable {c : Config}

theorem decodeTokens_pid (p i d : Token) :
    decodeTokens c [Keyword.pid.bytes, p, i, d] = .cmdPid p i d := rfl

theorem decodeTokens_ledOn : decodeTokens c [Keyword.led.bytes, tokenOn] = .cmdLedOn := rfl

theorem decodeTokens_ledOff : decodeTokens c [Keyword.led.bytes, tokenOff] = .cmdLedOff := rfl

theorem decodeTokens_ledBadarg {arg : Token} (hon : arg ≠ tokenOn) (hoff : arg ≠ tokenOff) :
    decodeTokens c [Keyword.led.bytes, arg] = .cmdLedBadarg arg :=
  (if_neg hon).trans (if_neg hoff)

theorem decodeTokens_status (h : c.statusEnabled = true) :
    decodeTokens c [Keyword.status.bytes] = .cmdStatus := by
  rw [decodeTokens, keywordOf_bytes (k := .status) h]; rfl

theorem decodeTokens_argcMismatch {k : Keyword} {args : List Token} (hk : k.present c = true)
    (hn : args.length ≠ k.argc) : decodeTokens c (k.bytes :: args) = .cmdArgcMismatch k args := by
  rw [decodeTokens, keywordOf_bytes hk]; exact if_pos hn

theorem decodeTokens_unknown {kw : Token} (h : keywordOf c kw = none) (args : List Token) :
    decodeTokens c (kw :: args) = .cmdUnknown kw args := by
  rw [decodeTokens, h]

end Check

/-! ### Decoding undoes encoding -/

/-- The bytes that neither end nor restart a frame, as `Instr.wf` writes them. -/
theorem collectable_iff {c : Config} {b : Byte} :
    (b != RB && !(b == LB && c.lbracketPolicy == .restart)) = true ↔
      b ≠ RB ∧ ¬ (b = LB ∧ c.lbracketPolicy = .restart) := by
  simp [imp_iff_not_or]

/-- Settles O4, by operation: an agent's step by itself, an assembler word by its row of R73, a payload by its
tokens and the check of R155. -/
theorem decodeOfEncodeIsTheOperation : Obligations.DecodeOfEncodeIsTheOperation := by
  intro c cur i hwf hside
  have word (st : FaState) (b : Byte) : decode c cur (.faWord (faWord st b)) = decodeFa c st cur b :=
    decodeFaWord_faWord c cur st b
  have payload {t : Token} {ts : List Token} (h : tokensOk c (t :: ts) = true) :=
    decode_payload_joinTokens cur (List.cons_ne_nil t ts) h
  cases i with
  | chPush _ | chConsume | chRxTimeout | diagDrain | hostRead _ | reset => rfl
  | faStart => exact (word .wait LB).trans decodeFa_start
  | faNoise b => exact (word .wait b).trans (decodeFa_noise (bne_iff_ne.1 hwf))
  | faEnd => exact (word .collect RB).trans decodeFa_end
  | faRestart => exact (word .collect LB).trans (decodeFa_restart (beq_iff_eq.1 hwf))
  | faData b =>
    obtain ⟨he, hr⟩ := collectable_iff.1 (Bool.and_eq_true_iff.1 hwf).1
    exact (word .collect b).trans (decodeFa_data he hr (of_decide_eq_true hside))
  | faOverflow b =>
    obtain ⟨he, hr⟩ := collectable_iff.1 hwf
    have hfull : cur = c.faCap - 1 := of_decide_eq_true hside
    exact (word .collect b).trans (decodeFa_overflow he hr hfull.not_lt)
  | cmdPid p q d => exact (payload hwf).trans (decodeTokens_pid p q d)
  | cmdLedOn => exact (payload hwf).trans decodeTokens_ledOn
  | cmdLedOff => exact (payload hwf).trans decodeTokens_ledOff
  | cmdLedBadarg arg =>
    simp only [Instr.wf, Bool.and_eq_true, bne_iff_ne] at hwf
    obtain ⟨⟨hon, hoff⟩, hts⟩ := hwf
    exact (payload hts).trans (decodeTokens_ledBadarg hon hoff)
  | cmdStatus =>
    obtain ⟨hen, hts⟩ := Bool.and_eq_true_iff.1 hwf
    exact (payload hts).trans (decodeTokens_status hen)
  | cmdArgcMismatch k args =>
    simp only [Instr.wf, Bool.and_eq_true, bne_iff_ne] at hwf
    obtain ⟨⟨hk, hn⟩, hts⟩ := hwf
    exact (payload hts).trans (decodeTokens_argcMismatch hk hn)
  | cmdUnknown kw args =>
    obtain ⟨hkw, hts⟩ := Bool.and_eq_true_iff.1 hwf
    exact (payload hts).trans (decodeTokens_unknown (beq_iff_eq.1 hkw) args)

/-! ### The table of R73 -/

theorem setWidth_faWord (st : FaState) (b : Byte) : (faWord st b).setWidth 8 = b := by
  revert b; cases st <;> decide

/-- The rows that fix all nine bits fix the state and the byte. -/
theorem faWord_full_mask (st st' : FaState) (b b' : Byte) :
    faWord st b &&& 0x1FF#9 = faWord st' b' ↔ st = st' ∧ b = b' := by
  rw [show (0x1FF#9) = BitVec.allOnes 9 from rfl, BitVec.and_allOnes]
  refine ⟨fun h => ⟨?_, ?_⟩, fun ⟨hs, hb⟩ => by rw [hs, hb]⟩
  · simpa using congrArg wordState h
  · simpa using congrArg wordByte h

/-- The rows that fix the bit S alone fix the state. -/
theorem faWord_state_mask (st st' : FaState) (b : Byte) :
    faWord st b &&& 0x100#9 = faWord st' 0 ↔ st = st' := by
  revert b; cases st <;> cases st' <;> decide

/-- Which words each pair of pattern and mask in the table of R73 matches. -/
theorem faWord_matches (st : FaState) (b : Byte) :
    (faWord st b &&& 0x1FF#9 = 0x05B#9 ↔ st = .wait ∧ b = LB) ∧
    (faWord st b &&& 0x100#9 = 0x000#9 ↔ st = .wait) ∧
    (faWord st b &&& 0x1FF#9 = 0x15D#9 ↔ st = .collect ∧ b = RB) ∧
    (faWord st b &&& 0x1FF#9 = 0x15B#9 ↔ st = .collect ∧ b = LB) ∧
    (faWord st b &&& 0x100#9 = 0x100#9 ↔ st = .collect) :=
  ⟨faWord_full_mask st .wait b LB, faWord_state_mask st .wait b, faWord_full_mask st .collect b RB,
    faWord_full_mask st .collect b LB, faWord_state_mask st .collect b⟩

/-- Settles O1: under each condition of `decodeFa_cases` the rows above its own do not match, and its own
does. -/
theorem assemblerDecodeIsFirstMatchingRow : Obligations.AssemblerDecodeIsFirstMatchingRow := by
  intro c cur w
  rw [← faWord_fields w, decodeFaWord_faWord, setWidth_faWord]
  generalize wordState w = st, wordByte w = b
  have hne : LB ≠ RB := by decide
  rcases decodeFa_cases c st cur b with ⟨rfl, rfl, e⟩ | ⟨rfl, hb, e⟩ | ⟨rfl, rfl, e⟩ |
    ⟨rfl, rfl, hp, e⟩ | ⟨rfl, he, hr, hroom, e⟩ | ⟨rfl, he, hr, hfull, e⟩
  · exact ⟨faTable[0], by simp [faTable, FaRow.selects, faWord_matches], e⟩
  · exact ⟨faTable[1], by simp [faTable, FaRow.selects, faWord_matches, hb], e⟩
  · exact ⟨faTable[2], by simp [faTable, FaRow.selects, faWord_matches], e⟩
  · exact ⟨faTable[3], by simp [faTable, FaRow.selects, faWord_matches, hne, hp], e⟩
  · have hr' := not_and_or.1 hr
    exact ⟨faTable[4], by simp [faTable, FaRow.selects, faWord_matches, he, hr', hroom], e⟩
  · have hr' := not_and_or.1 hr
    exact ⟨faTable[5], by simp [faTable, FaRow.selects, faWord_matches, he, hr', hfull], e⟩

/-- Settles O5: each code is a row of R73, a payload of R76, or an agent's step (R5). -/
theorem specWordsDecodeToTheirOperations : Obligations.SpecWordsDecodeToTheirOperations := by
  unfold Obligations.SpecWordsDecodeToTheirOperations
  decide

end Sys2Proof
end

section
/-! SUPPORT. One byte under the eager schedule of spec/95_test_vectors.md (push, consume, drain), and the
payload that is too long for the buffer (R79, R126). -/

namespace Sys2Proof.Machine

/-! ### The assembler on a start byte and on payload bytes -/

theorem faStep_start {s : State} (hs : s.faState = .wait) (hv : s.diagPend.valid = false) :
    faStep LB s = .next s.clearFrame := by
  have hsel : decodeFa s.cfg s.faState s.faCur LB = .faStart := by rw [hs, decodeFa_start]
  rw [faStep, hsel]
  exact (performFa_selected hv hsel : execFaStart s = _)

section Payload

variable {s : State} {b : Byte}

theorem faStep_data (hs : s.faState = .collect) (hv : s.diagPend.valid = false)
    (hb : b ≠ RB ∧ ¬ (b = LB ∧ s.cfg.lbracketPolicy = .restart)) (hroom : s.faCur < s.cfg.faCap - 1) :
    faStep b s = .next { s with faBuf := s.faBuf.write s.faCur b, faCur := s.faCur + 1 } := by
  have hsel : decodeFa s.cfg s.faState s.faCur b = .faData b := by
    rw [hs, decodeFa_data hb.1 hb.2 hroom]
  have hin : s.faCur < s.cfg.faCap := hroom.trans_le (Nat.sub_le _ _)
  rw [faStep, hsel]
  show execFaData b s = _
  rw [execFaData, performFa_selected hv hsel, State.writeFa_ok.2 ⟨hin, rfl⟩]

theorem faStep_overflow (hs : s.faState = .collect) (hv : s.diagPend.valid = false)
    (hb : b ≠ RB ∧ ¬ (b = LB ∧ s.cfg.lbracketPolicy = .restart))
    (hfull : ¬ s.faCur < s.cfg.faCap - 1) :
    faStep b s =
      .next ({ s.leaveFrame with ovfCnt := bump s.ovfCnt }.makeDiag diagOverflow 0 0 0) := by
  have hsel : decodeFa s.cfg s.faState s.faCur b = .faOverflow b := by
    rw [hs, decodeFa_overflow hb.1 hb.2 hfull]
  rw [faStep, hsel]
  exact (performFa_selected hv hsel : execFaOverflow b s = _)

end Payload

/-! ### Push, consume and drain for one byte -/

/-- An accepted push (R101). -/
def State.pushed (s : State) (b : Byte) : State :=
  { s with
    chBuf := s.chBuf.write s.chWr b, chWr := (s.chWr + 1) % s.cfg.chCap, chCnt := s.chCnt + 1
    trace := s.trace ++ [.accepted b] }

/-- The state in which a byte that went through the empty channel reaches the assembler (R101, R103). -/
def State.handedOver (s : State) (b : Byte) : State :=
  { s.pushed b with chRd := (s.chRd + 1) % s.cfg.chCap, chCnt := s.chCnt }

/-- The state after a DIAG_DRAIN, enabled or not (R17, R171). -/
def State.drained (s : State) : State :=
  if s.diagPend.valid then
    { s with
      trace := s.trace ++ [.diag s.diagPend.code s.diagPend.d0 s.diagPend.d1 s.diagPend.d2]
      diagPend := { s.diagPend with valid := false } }
  else s

theorem execChPush_accepted {s : State} (hroom : s.chCnt < s.cfg.chCap) (hwr : s.chWr < s.cfg.chCap)
    (b : Byte) : execChPush b s = .next (s.pushed b) := by
  rw [execChPush, State.acceptsPush, if_pos (decide_eq_true hroom), State.enqueue_ok.2 ⟨hwr, rfl⟩]
  rfl

theorem execDiagDrain_eq (s : State) : execDiagDrain s = .next s.drained := by
  unfold execDiagDrain State.drained State.drainEnabled
  split <;> rfl

theorem State.drained_of_idle {s : State} (h : s.diagPend.valid = false) : s.drained = s := by
  simp [State.drained, h]

/-- A state of the invariant that waits for a byte: the channel is empty and nothing is pending. -/
structure State.Idle (s : State) : Prop where
  inv : s.Inv
  empty : s.chCnt = 0
  notPending : s.diagPend.valid = false

theorem State.Idle.schedule {s : State} (h : s.Idle) (sch : List AgentStep) :
    State.Idle { s with schedule := sch } :=
  ⟨h.inv.schedule sch, h.empty, h.notPending⟩

section Byte

variable {s t : State} {b : Byte} {rest : List AgentStep}

theorem State.Idle.execChPush_eq (h : s.Idle) (b : Byte) : execChPush b s = .next (s.pushed b) :=
  execChPush_accepted (h.empty ▸ h.inv.chCap_pos) h.inv.chWrInside b

/-- The CONSUMER takes the byte just pushed: the channel held no other. -/
theorem State.Idle.execChConsume_eq (h : s.Idle) (b : Byte) :
    execChConsume (s.pushed b) = faStep b (s.handedOver b) := by
  have hen : (s.pushed b).consumeEnabled = true := by
    simp [State.consumeEnabled, State.pushed, h.notPending]
  have hwr : s.chWr = s.chRd := by
    rw [h.inv.chWrPlace, h.empty, Nat.add_zero, Nat.mod_eq_of_lt h.inv.chRdInside]
  have hread : (s.pushed b).chBuf.read s.chRd = some b := by simp [State.pushed, hwr]
  have hdequeue : (s.pushed b).dequeue = .ok (b, s.handedOver b) :=
    State.dequeue_ok.2 ⟨h.inv.chRdInside, hread, rfl⟩
  rw [execChConsume, if_pos hen, hdequeue]

theorem State.Idle.inv_handedOver (h : s.Idle) (b : Byte) : (s.handedOver b).Inv :=
  have hpushed : (s.pushed b).Inv := h.inv.push b (h.empty ▸ h.inv.chCap_pos) _ _
  hpushed.take (Nat.succ_pos _)

/-- Three steps of the eager schedule: the assembler step on the byte, and a drain. -/
theorem State.Idle.run_eager_byte (h : s.Idle) (k : Nat)
    (hs : s.schedule = .producerPush b :: .consumerConsume :: .sinkDrain :: rest)
    (hfa : faStep b (State.handedOver { s with schedule := .sinkDrain :: rest } b) = .next t) :
    Host.Core.run core (k + 3) s = Host.Core.run core k (State.drained { t with schedule := rest }) := by
  have hpush : step s =
      .next (State.pushed { s with schedule := .consumerConsume :: .sinkDrain :: rest } b) := by
    rw [(stepRunsTheScheduledOperation s h.inv.admitted).1 _ _ hs]
    exact (h.schedule _).execChPush_eq b
  have hconsume :
      step (State.pushed { s with schedule := .consumerConsume :: .sinkDrain :: rest } b) = .next t := by
    rw [(stepRunsTheScheduledOperation _ (by exact h.inv.admitted)).1 _ _ rfl]
    exact ((h.schedule _).execChConsume_eq b).trans hfa
  have ht := faStep_writes (by exact h.notPending) hfa
  have hdrain : step t = .next (State.drained { t with schedule := rest }) := by
    have hcfg : t.cfg = s.cfg := (congrArg State.cfg ht).trans rfl
    have hsch : t.schedule = .sinkDrain :: rest := (congrArg State.schedule ht).trans rfl
    rw [(stepRunsTheScheduledOperation t (hcfg ▸ h.inv.admitted)).1 _ _ hsch]
    exact execDiagDrain_eq _
  rw [run_succ_next (M := core) (k + 2) hpush, run_succ_next (M := core) (k + 1) hconsume,
    run_succ_next (M := core) k hdrain]

/-- A byte on which the assembler reports nothing leaves the machine waiting for the next byte. -/
theorem State.Idle.run_quiet_byte (h : s.Idle) (k : Nat)
    (hs : s.schedule = .producerPush b :: .consumerConsume :: .sinkDrain :: rest)
    (hfa : faStep b (State.handedOver { s with schedule := .sinkDrain :: rest } b) = .next t)
    (hquiet : t.diagPend.valid = false) :
    Host.Core.run core (k + 3) s = Host.Core.run core k { t with schedule := rest } ∧
      State.Idle { t with schedule := rest } := by
  have hempty : t.chCnt = s.chCnt :=
    (congrArg State.chCnt (faStep_writes (by exact h.notPending) hfa)).trans rfl
  have hinv : t.Inv := ((h.schedule _).inv_handedOver b).faStep h.notPending hfa
  have hdrained : State.drained { t with schedule := rest } = { t with schedule := rest } :=
    State.drained_of_idle hquiet
  exact ⟨(h.run_eager_byte k hs hfa).trans (congrArg _ hdrained),
    hinv.schedule rest, hempty.trans h.empty, hquiet⟩

end Byte

/-! ### The payload of M bytes -/

/-- What a run leaves that took the bytes `p` and overflowed at the last of them: the frame is left, one
overflow is counted, and its diagnostic is drained. -/
def Overflowed (s : State) (p : List Byte) (rest : List AgentStep) (t : State) : Prop :=
  t = { s with
    chBuf := t.chBuf, chRd := t.chRd, chWr := t.chWr, faBuf := t.faBuf, faCur := 0, faState := .wait
    ovfCnt := s.ovfCnt + 1, diagPend := ⟨false, 0x20, 0, 0, 0⟩
    trace := s.trace ++ p.map .accepted ++ [.diag 0x20 0 0 0], schedule := rest }

/-- A byte before the overflow changes only the channel's storage and the frame. -/
theorem Overflowed.cons {s u t : State} {b : Byte} {p : List Byte} {rest : List AgentStep}
    (hu : u = { s with
      chBuf := u.chBuf, chRd := u.chRd, chWr := u.chWr, faBuf := u.faBuf, faCur := u.faCur
      faState := u.faState, trace := s.trace ++ [.accepted b], schedule := u.schedule })
    (ht : Overflowed u p rest t) : Overflowed s (b :: p) rest t := by
  unfold Overflowed at ht ⊢
  rw [hu] at ht
  rw [List.map_cons, ← List.singleton_append, ← List.append_assoc s.trace]
  exact ht

/-- The rest `p` of a payload overflows at its last byte when it has as many bytes as the buffer has left. -/
theorem State.Idle.run_overlong {s : State} {p : List Byte} {rest : List AgentStep} (h : s.Idle)
    (hcollect : s.faState = .collect) (hlen : s.faCur + p.length = s.cfg.faCap)
    (hp : ∀ b ∈ p, b ≠ RB ∧ ¬ (b = LB ∧ s.cfg.lbracketPolicy = .restart))
    (hs : s.schedule = eagerSchedule p ++ rest) :
    ∃ t, Host.Core.run core (3 * p.length) s = .next t ∧ Overflowed s p rest t := by
  induction p generalizing s with
  | nil => exact absurd hlen h.inv.faCurBound.ne
  | cons b p ih =>
    have hb := hp b List.mem_cons_self
    rw [List.length_cons] at hlen
    rw [List.length_cons, Nat.mul_succ]
    by_cases hroom : s.faCur < s.cfg.faCap - 1
    · obtain ⟨hrun, hidle⟩ := h.run_quiet_byte (3 * p.length) hs
        (faStep_data hcollect h.notPending hb hroom) h.notPending
      obtain ⟨t, ht, hov⟩ := ih hidle hcollect (by show s.faCur + 1 + p.length = s.cfg.faCap; omega)
        (fun x hx => hp x (List.mem_cons_of_mem b hx)) rfl
      exact ⟨t, hrun.trans ht, hov.cons rfl⟩
    · obtain rfl : p = [] := List.length_eq_zero_iff.1 (by omega)
      exact ⟨_, h.run_eager_byte 0 hs (faStep_overflow hcollect h.notPending hb hroom), rfl⟩

/-- Settles O27: `[` starts the frame, and the payload overflows it at its last byte. -/
theorem overlongPayloadOverflowsAtTheMthByte : Obligations.OverlongPayloadOverflowsAtTheMthByte := by
  intro s p rest hinv hempty hpend hwait hlen hp hs
  have h : s.Idle := ⟨hinv, hempty, hpend⟩
  obtain ⟨hrun, hidle⟩ := h.run_quiet_byte (3 * p.length) hs (faStep_start hwait hpend) hpend
  obtain ⟨t, ht, hov⟩ := hidle.run_overlong rfl ((Nat.zero_add _).trans hlen) hp rfl
  have ht' : Overflowed s (LB :: p) rest t := hov.cons rfl
  refine ⟨t, hrun.trans ht, ?_⟩
  unfold Overflowed at ht'
  rw [ht']
  simp

end Sys2Proof.Machine
end

section
/-! SUPPORT. CH_PUSH and CH_CONSUME as the operations that run (R101, R103, R120), and a burst of pushes
(R106). -/

namespace Sys2Proof.Machine

/-! ### CH_PUSH -/

theorem execChPush_dropped {s : State} (hfull : ¬ s.chCnt < s.cfg.chCap) (b : Byte) :
    execChPush b s =
      .next { s with dropCnt := s.dropCnt + 1, trace := s.trace ++ [.dropped b] } := by
  have hrefused : ¬ s.acceptsPush = true := by simpa [State.acceptsPush] using hfull
  rw [execChPush, if_neg hrefused]
  rfl

/-- Settles O10: with room the byte is stored at `CH_WR`, and without it the drop is counted. -/
theorem pushStoresOrCountsADrop : Obligations.PushStoresOrCountsADrop :=
  fun s b hwr =>
    ⟨fun hroom => ⟨s.pushed b, execChPush_accepted hroom hwr b, Memory.read_write_same _ _ _,
      fun _ hne => Memory.read_write_ne _ _ hne, rfl⟩,
    fun hfull => execChPush_dropped hfull b⟩

/-! ### CH_CONSUME -/

/-- The byte at `CH_RD` goes to the assembler in the same step (R103, R120). -/
theorem execChConsume_enabled {s : State} {b : Byte} (hc : 0 < s.chCnt)
    (hv : s.diagPend.valid = false) (hrd : s.chRd < s.cfg.chCap)
    (hb : s.chBuf.read s.chRd = some b) :
    execChConsume s =
      faStep b { s with chRd := (s.chRd + 1) % s.cfg.chCap, chCnt := s.chCnt - 1 } := by
  have hen : s.consumeEnabled = true := by simp [State.consumeEnabled, hc, hv]
  rw [execChConsume, if_pos hen, State.dequeue_ok.2 ⟨hrd, hb, rfl⟩]

/-- R73 selects assembler operations only, which `exec` and the assembler perform alike. -/
theorem exec_decodeFa (c : Config) (st : FaState) (cur : Nat) (b : Byte) (s : State) :
    exec (decodeFa c st cur b) s = execFa (decodeFa c st cur b) s := by
  rcases decodeFa_cases c st cur b with ⟨-, -, e⟩ | ⟨-, -, e⟩ | ⟨-, -, e⟩ | ⟨-, -, -, e⟩ |
    ⟨-, -, -, -, e⟩ | ⟨-, -, -, -, e⟩ <;> rw [e] <;> rfl

/-- Settles O11: the dequeue leaves what R73 consults, and the operation selected is performed. -/
theorem consumeRunsTheSelectedAssemblerOperation :
    Obligations.ConsumeRunsTheSelectedAssemblerOperation := by
  intro s b hc hv hrd hb
  rw [exec_decodeFa]
  exact execChConsume_enabled hc hv hrd hb

/-! ### A burst of pushes -/

/-- What the pushes of `bs` leave of `s`, with the schedule `rest` after them: the first `N - c` bytes are
accepted and the others dropped (R106). -/
def BurstLeaves (s : State) (bs : List Byte) (rest : List AgentStep) (t : State) : Prop :=
  t.queue = s.queue ++ bs.take (s.cfg.chCap - s.chCnt) ∧
  t.chCnt = min s.cfg.chCap (s.chCnt + bs.length) ∧
  t.dropCnt = s.dropCnt + BitVec.ofNat 32 (bs.length - (s.cfg.chCap - s.chCnt)) ∧
  t.trace = s.trace ++ (bs.take (s.cfg.chCap - s.chCnt)).map .accepted
    ++ (bs.drop (s.cfg.chCap - s.chCnt)).map .dropped ∧
  t = { s with
    chBuf := t.chBuf, chWr := t.chWr, chCnt := t.chCnt, dropCnt := t.dropCnt
    trace := t.trace, schedule := rest }

theorem State.Inv.burst_nil {s : State} (h : s.Inv) : BurstLeaves s [] s.schedule s := by
  refine ⟨by simp, by simpa using h.chCntBound, by simp, by simp, rfl⟩

/-- A burst that begins with room accepts its first byte. -/
theorem BurstLeaves.cons_accepted {s t : State} {b : Byte} {bs : List Byte} {rest sch : List AgentStep}
    (h : s.Inv) (hroom : s.chCnt < s.cfg.chCap)
    (ht : BurstLeaves (State.pushed { s with schedule := sch } b) bs rest t) :
    BurstLeaves s (b :: bs) rest t := by
  obtain ⟨n, hn⟩ : ∃ n, s.cfg.chCap - s.chCnt = n + 1 := ⟨s.cfg.chCap - s.chCnt - 1, by omega⟩
  have hleft : s.cfg.chCap - (s.chCnt + 1) = n := by omega
  have hpushed : State.queue (State.pushed { s with schedule := sch } b) = s.queue ++ [b] :=
    h.queue_push b hroom
  obtain ⟨hqueue, hcnt, hdrop, htrace, hframe⟩ := ht
  rw [hpushed] at hqueue
  simp only [State.pushed, hleft] at hqueue hcnt hdrop htrace
  refine ⟨?_, ?_, ?_, ?_, hframe⟩
  · simp [hqueue, hn]
  · rw [hcnt, List.length_cons]; omega
  · simp [hdrop, hn]
  · simp [htrace, hn]

/-- Every byte of a burst into a full channel is dropped. -/
theorem BurstLeaves.cons_dropped {s t : State} {b : Byte} {bs : List Byte} {rest sch : List AgentStep}
    (hfull : ¬ s.chCnt < s.cfg.chCap)
    (ht : BurstLeaves { s with
      dropCnt := s.dropCnt + 1, trace := s.trace ++ [.dropped b], schedule := sch } bs rest t) :
    BurstLeaves s (b :: bs) rest t := by
  have hnone : s.cfg.chCap - s.chCnt = 0 := by omega
  obtain ⟨hqueue, hcnt, hdrop, htrace, hframe⟩ := ht
  simp only [hnone] at hqueue hcnt hdrop htrace
  refine ⟨?_, ?_, ?_, ?_, hframe⟩
  · rw [hnone]; exact hqueue
  · rw [hcnt, List.length_cons]; omega
  · simp [hdrop, hnone, Nat.add_comm bs.length, BitVec.ofNat_add, BitVec.add_assoc]
  · simp [htrace, hnone]

theorem State.Inv.run_burst {s : State} {bs : List Byte} {rest : List AgentStep} (h : s.Inv)
    (hs : s.schedule = bs.map .producerPush ++ rest) :
    ∃ t, Host.Core.run core bs.length s = .next t ∧ BurstLeaves s bs rest t := by
  induction bs generalizing s with
  | nil =>
    obtain rfl : s.schedule = rest := hs
    exact ⟨s, rfl, h.burst_nil⟩
  | cons b bs ih =>
    have hstep : Machine.step s = execChPush b { s with schedule := bs.map .producerPush ++ rest } :=
      (stepRunsTheScheduledOperation s h.admitted).1 _ _ hs
    by_cases hroom : s.chCnt < s.cfg.chCap
    · have hpush := hstep.trans (execChPush_accepted (by exact hroom) (by exact h.chWrInside) b)
      obtain ⟨t, hrun, ht⟩ := ih (h.step hpush) rfl
      exact ⟨t, (run_succ_next (M := core) bs.length hpush).trans hrun, ht.cons_accepted h hroom⟩
    · have hpush := hstep.trans (execChPush_dropped (by exact hroom) b)
      obtain ⟨t, hrun, ht⟩ := ih (h.step hpush) rfl
      exact ⟨t, (run_succ_next (M := core) bs.length hpush).trans hrun, ht.cons_dropped hroom⟩

/-- Settles O14, by induction on the bytes of the burst. -/
theorem burstDropsExactlyTheExcess : Obligations.BurstDropsExactlyTheExcess :=
  fun _ _ _ h hs => h.run_burst hs

end Sys2Proof.Machine
end

section
/-! SUPPORT. The engine over arrays refines the engine over lists (R24, R39, R100): each agent's step commutes with
`State.abstract`. -/

namespace Sys2Proof.Machine

/-! ### The abstraction -/

/-- The step over lists when `x` is chosen before the rest of the schedule. -/
def Abstract.act (a : Abstract) (x : AgentStep) : Option Abstract :=
  Abstract.step { a with schedule := x :: a.schedule }

/-- An outcome over arrays and an outcome over lists, none being the refusal; no fault has a match. -/
def Refines : Host.Outcome State Fault Refusal → Option Abstract → Prop
  | .next t, a => a = some t.abstract
  | .fault _, _ => False
  | .refused _, a => a = none

section Fields

variable {s : State}

@[simp] theorem State.abstract_queue : s.abstract.queue = s.queue := rfl

@[simp] theorem State.abstract_draws : s.abstract.draws = s.draws := rfl

theorem State.queue_eq_nil : s.queue = [] ↔ s.chCnt = 0 := by
  rw [← List.length_eq_zero_iff, s.length_queue]

theorem State.abstract_frame_wait (hs : s.faState = .wait) : s.abstract.frame = none := if_pos hs

theorem State.abstract_frame_collect (hs : s.faState = .collect) :
    s.abstract.frame = some s.collected := if_neg (by simp [hs])

theorem State.abstract_diag_idle (hv : s.diagPend.valid = false) : s.abstract.diag = none :=
  if_neg (by simp [hv])

theorem State.abstract_diag_pending (hv : s.diagPend.valid = true) :
    s.abstract.diag = some (s.diagPend.code, s.diagPend.d0, s.diagPend.d1, s.diagPend.d2) := if_pos hv

theorem State.abstract_diag_isSome : s.abstract.diag.isSome = s.diagPend.valid := by
  rcases hv : s.diagPend.valid with _ | _
  · rw [State.abstract_diag_idle hv]; rfl
  · rw [State.abstract_diag_pending hv]; rfl

theorem State.abstract_diag_eq_none : s.abstract.diag = none ↔ s.diagPend.valid = false := by
  rw [← Option.not_isSome_iff_eq_none, State.abstract_diag_isSome, Bool.not_eq_true]

@[simp] theorem State.length_collected : s.collected.length = s.faCur := by simp [State.collected]

/-- A byte stored at the cursor lengthens the collected part by one (R125). -/
theorem State.collected_append (b : Byte) :
    State.collected { s with faBuf := s.faBuf.write s.faCur b, faCur := s.faCur + 1 } =
      s.collected ++ [b] := by
  simp only [State.collected, List.range_succ, List.map_append, List.map_singleton]
  congr 1
  · refine List.map_congr_left fun j hj => ?_
    rw [Memory.read_write_ne _ _ (Nat.ne_of_lt (List.mem_range.1 hj))]
  · simp

end Fields

/-! ### The assembler (R73) -/

section Take

variable {a : Abstract} {b : Byte} {p : List Byte}

theorem Abstract.take_start (hf : a.frame = none) : a.take LB = { a with frame := some [] } := by
  simp [Abstract.take, hf]

theorem Abstract.take_noise (hf : a.frame = none) (hb : b ≠ LB) : a.take b = a := by
  simp [Abstract.take, hf, hb]

theorem Abstract.take_end (hf : a.frame = some p) :
    a.take RB =
      let e := dispatchEffect a.cfg a.dropCnt a.ovfCnt a.gain a.led (p.takeWhile (· ≠ NUL))
      { a with frame := none, gain := e.1, led := e.2.1 }.withDiag e.2.2 := by
  simp [Abstract.take, hf]

theorem Abstract.take_restart (hf : a.frame = some p) (hp : a.cfg.lbracketPolicy = .restart) :
    a.take LB = { a with frame := some [] } := by
  have hne : LB ≠ RB := by decide
  simp [Abstract.take, hf, hne, hp]

theorem Abstract.take_data (hf : a.frame = some p) (he : b ≠ RB)
    (hr : ¬ (b = LB ∧ a.cfg.lbracketPolicy = .restart)) (hroom : p.length + 1 < a.cfg.faCap) :
    a.take b = { a with frame := some (p ++ [b]) } := by
  simp [Abstract.take, hf, he, hr, hroom]

theorem Abstract.take_overflow (hf : a.frame = some p) (he : b ≠ RB)
    (hr : ¬ (b = LB ∧ a.cfg.lbracketPolicy = .restart)) (hfull : ¬ p.length + 1 < a.cfg.faCap) :
    a.take b =
      { a with frame := none, ovfCnt := a.ovfCnt + 1 }.withDiag ⟨true, 0x20, 0, 0, 0⟩ := by
  simp [Abstract.take, hf, he, hr, hfull]

end Take

/-- A dispatch always makes a diagnostic (R150). -/
theorem dispatchEffect_valid (c : Config) (x y : Word32) (g : Gains) (l : Bool) (p : List Byte) :
    (dispatchEffect c x y g l p).2.2.valid = true := by
  rcases dispatchEffect_cases c x y g l p with ⟨_, _, _, e⟩ | ⟨_, e⟩ | ⟨_, _, _, -, e⟩ <;> rw [e]

/-- FA_END over lists (R123): the payload is the collected part up to its first 0x00. -/
theorem State.abstract_afterFrameEnd {s : State} (hs : s.faState = .collect) :
    s.abstract.take RB = s.afterFrameEnd.abstract := by
  have hdiag := State.abstract_diag_pending (s := s.afterFrameEnd) (dispatchEffect_valid ..)
  rw [Abstract.take_end (State.abstract_frame_collect hs)]
  exact congrArg (fun d => { s.afterFrameEnd.abstract with diag := d }) hdiag.symm

/-- One assembler step (R120). -/
theorem State.Inv.faStep_abstract {s t : State} {b : Byte} (h : s.Inv)
    (hv : s.diagPend.valid = false) (hstep : Machine.faStep b s = .next t) :
    s.abstract.take b = t.abstract := by
  rcases faStep_cases hv hstep with ⟨hs, rfl, rfl⟩ | ⟨hs, hb, rfl⟩ | ⟨hs, rfl, hcur, p, hp, rfl⟩ |
    ⟨hs, rfl, hpol, rfl⟩ | ⟨hs, he, hr, hroom, rfl⟩ | ⟨hs, he, hr, hfull, rfl⟩
  · exact Abstract.take_start (State.abstract_frame_wait hs)
  · exact Abstract.take_noise (State.abstract_frame_wait hs) hb
  · cases hp.symm.trans (State.payload_terminated hcur h.faWritten)
    exact State.abstract_afterFrameEnd hs
  · exact Abstract.take_restart (State.abstract_frame_collect hs) hpol
  · rw [Abstract.take_data (State.abstract_frame_collect hs) he hr
      (by rw [State.length_collected]; show s.faCur + 1 < s.cfg.faCap; omega), ← State.collected_append b,
      ← State.abstract_frame_collect
        (s := { s with faBuf := s.faBuf.write s.faCur b, faCur := s.faCur + 1 }) hs]
    rfl
  · rw [Abstract.take_overflow (State.abstract_frame_collect hs) he hr
      (by rw [State.length_collected]; show ¬ s.faCur + 1 < s.cfg.faCap; omega)]
    rfl

/-! ### The agents' steps over lists -/

section Act

variable {a : Abstract} {b : Byte} {q : List Byte} {d : BitVec 8 × Word32 × Word32 × Word32}

theorem Abstract.act_consume_pending (hd : a.diag = some d) : a.act .consumerConsume = some a := by
  cases a; cases hd; rfl

theorem Abstract.act_consume_empty (hq : a.queue = []) : a.act .consumerConsume = some a := by
  obtain ⟨_, _, _, _, _, _, _, diag, _, _, _⟩ := a
  cases hq
  cases diag <;> rfl

theorem Abstract.act_consume_take (hd : a.diag = none) (hq : a.queue = b :: q) :
    a.act .consumerConsume = some ({ a with queue := q }.take b) := by
  cases a; cases hd; cases hq; rfl

theorem Abstract.act_drain_idle (hd : a.diag = none) : a.act .sinkDrain = some a := by
  cases a; cases hd; rfl

theorem Abstract.act_drain_pending (hd : a.diag = some d) :
    a.act .sinkDrain =
      some { a with diag := none, trace := a.trace ++ [.diag d.1 d.2.1 d.2.2.1 d.2.2.2] } := by
  cases a; cases hd; rfl

end Act

/-! ### The agents' steps -/

/-- CH_PUSH appends to the queue, or counts the drop (R101). -/
theorem State.Inv.push_refines {s : State} (h : s.Inv) (b : Byte) :
    Refines (execChPush b s) (s.abstract.act (.producerPush b)) := by
  by_cases hroom : s.chCnt < s.cfg.chCap
  · rw [execChPush_accepted hroom h.chWrInside]
    have hqueue : (s.pushed b).queue = s.queue ++ [b] := h.queue_push b hroom
    have hlist : s.queue.length < s.cfg.chCap := by rwa [s.length_queue]
    refine (if_pos hlist).trans ?_
    rw [State.abstract_queue, ← hqueue]
    rfl
  · rw [execChPush_dropped hroom]
    have hlist : ¬ s.queue.length < s.cfg.chCap := by rwa [s.length_queue]
    exact if_neg hlist

/-- The byte at `CH_RD` of a channel that is not empty has been written (R21). -/
theorem State.Inv.exists_oldest {s : State} (h : s.Inv) (hc : 0 < s.chCnt) :
    ∃ b, s.chBuf.read s.chRd = some b := by
  have hwritten := Option.isSome_iff_exists.1 (h.chWritten 0 hc)
  rwa [Nat.add_zero, Nat.mod_eq_of_lt h.chRdInside] at hwritten

/-- CH_CONSUME takes the head of the queue and runs the assembler on it (R103). -/
theorem State.Inv.consume_refines {s : State} (h : s.Inv) :
    Refines (execChConsume s) (s.abstract.act .consumerConsume) := by
  rcases hv : s.diagPend.valid with _ | _
  · rcases Nat.eq_zero_or_pos s.chCnt with hc | hc
    · rw [execChConsume_disabled (.inl hc)]
      exact Abstract.act_consume_empty (State.queue_eq_nil.2 hc)
    · obtain ⟨b, hb⟩ := h.exists_oldest hc
      obtain ⟨t, ht⟩ := (h.take hc).faStep_next hv b
      rw [execChConsume_enabled hc hv h.chRdInside hb, ht,
        Abstract.act_consume_take (State.abstract_diag_idle hv) (State.queue_take hc h.chRdInside hb)]
      exact congrArg some ((h.take hc).faStep_abstract hv ht)
  · rw [execChConsume_disabled (.inr hv)]
    exact Abstract.act_consume_pending (State.abstract_diag_pending hv)

/-- Under ABANDON_ON_TIMEOUT no frame is left (R130); in WAIT there was none. -/
theorem faTimeout_abstract {s : State} (hp : s.cfg.abandonOnTimeout = true) :
    (faTimeout s).abstract = { s.abstract with frame := none } := by
  rcases hs : s.faState with _ | _
  · rw [faTimeout, if_neg (by simp [hs]), ← State.abstract_frame_wait hs]
  · rw [faTimeout, if_pos ⟨hp, hs⟩]
    rfl

/-- CH_RX_TIMEOUT leaves the frame under the policy, and does nothing otherwise (R104, R130). -/
theorem timeout_refines (s : State) :
    Refines (execChRxTimeout s) (s.abstract.act .consumerTimeout) := by
  by_cases hen : s.cfg.rxTimeout ≠ 0 ∧ s.chCnt = 0 ∧ s.diagPend.valid = false
  · obtain ⟨hrx, hc, hv⟩ := hen
    have hexec : execChRxTimeout s = .next (faTimeout s) :=
      if_pos (by simp [State.timeoutEnabled, hrx, hc, hv])
    rw [hexec]
    by_cases hp : s.cfg.abandonOnTimeout = true
    · refine (if_pos ⟨hrx, State.queue_eq_nil.2 hc, State.abstract_diag_idle hv, hp⟩).trans ?_
      exact congrArg some (faTimeout_abstract hp).symm
    · rw [faTimeout, if_neg fun hboth => hp hboth.1]
      exact if_neg fun hall => hp hall.2.2.2
  · have hdis : s.cfg.rxTimeout = 0 ∨ s.chCnt ≠ 0 ∨ s.diagPend.valid = true := by
      rw [← Bool.not_eq_false]; tauto
    rw [execChRxTimeout_disabled hdis]
    exact if_neg fun ⟨hrx, hqueue, hdiag, _⟩ =>
      hen ⟨hrx, State.queue_eq_nil.1 hqueue, State.abstract_diag_eq_none.1 hdiag⟩

/-- DIAG_DRAIN (R171). -/
theorem drain_refines (s : State) : Refines (execDiagDrain s) (s.abstract.act .sinkDrain) := by
  rw [execDiagDrain_eq]
  rcases hv : s.diagPend.valid with _ | _
  · rw [State.drained_of_idle hv]
    exact Abstract.act_drain_idle (State.abstract_diag_idle hv)
  · rw [State.drained, if_pos hv]
    exact Abstract.act_drain_pending (State.abstract_diag_pending hv)

/-! ### The status view (R37) -/

theorem State.Inv.length_frame {s : State} (h : s.Inv) : (s.abstract.frame.getD []).length = s.faCur := by
  rcases hs : s.faState with _ | _
  · simp [State.abstract_frame_wait hs, h.waitCursor hs]
  · simp [State.abstract_frame_collect hs]

theorem State.abstract_frame_bit (s : State) :
    (if s.abstract.frame.isSome then 1 else 0 : Word32) = s.faState.bit.setWidth 32 := by
  rcases hs : s.faState with _ | _
  · rw [State.abstract_frame_wait hs]; rfl
  · rw [State.abstract_frame_collect hs]; rfl

/-- The registers of the pending diagnostic, which are draws while nothing is pending (log entry 11). -/
theorem State.view_diag_abstract (s : State) :
    s.abstract.view 0x0A = s.view 0x0A ∧ s.abstract.view 0x0B = s.view 0x0B ∧
      s.abstract.view 0x0C = s.view 0x0C ∧ s.abstract.view 0x0D = s.view 0x0D := by
  rcases hv : s.diagPend.valid with _ | _
  · have hdiag := State.abstract_diag_idle hv
    simp [Abstract.view, State.view, hv, hdiag]
  · have hdiag := State.abstract_diag_pending hv
    simp [Abstract.view, State.view, hv, hdiag]

/-- Every number has over lists the value it has over arrays, or is a register in neither. -/
theorem State.Inv.view_abstract {s : State} (h : s.Inv) (r : Nat) : s.abstract.view r = s.view r := by
  by_cases hr : r ≤ 0x0D
  · obtain ⟨hcode, hd0, hd1, hd2⟩ := s.view_diag_abstract
    interval_cases r
    · exact congrArg (fun n => some (BitVec.ofNat 32 n, 0)) s.length_queue
    · rfl
    · exact congrArg (fun w => some (w, 0)) s.abstract_frame_bit
    · exact congrArg (fun n => some (BitVec.ofNat 32 n, 0)) h.length_frame
    · rfl
    · rfl
    · rfl
    · rfl
    · rfl
    · exact congrArg (fun v : Bool => some (if v then 1 else 0, 0)) State.abstract_diag_isSome
    · exact hcode
    · exact hd0
    · exact hd1
    · exact hd2
  · have harrays : s.view r = none := by
      rw [← Option.not_isSome_iff_eq_none, s.view_isSome]
      exact hr
    rw [harrays, Abstract.view, List.getElem?_eq_none]
    simp only [List.length_cons, List.length_nil]
    omega

/-- HOST_READ (R213). -/
theorem State.Inv.hostRead_refines {s : State} (h : s.Inv) (r : Nat) :
    Refines (execHostRead r s) (s.abstract.act (.hostRead r)) := by
  have hact : s.abstract.act (.hostRead r) = (s.view r).map fun v =>
      { s.abstract with trace := s.trace ++ [.read r v.1], draws := s.draws + v.2 } :=
    congrArg (Option.map _) (h.view_abstract r)
  rw [hact, execHostRead]
  rcases s.view r with _ | ⟨v, k⟩ <;> rfl

/-- From the invariant every agent's step commutes with the abstraction. -/
theorem State.Inv.exec_refines {s : State} (h : s.Inv) (x : AgentStep) :
    Refines (exec (decodeStep x) s) (s.abstract.act x) := by
  cases x with
  | producerPush b => exact h.push_refines b
  | consumerConsume => exact h.consume_refines
  | consumerTimeout => exact timeout_refines s
  | sinkDrain => exact drain_refines s
  | hostRead r => exact h.hostRead_refines r
  | hostReset => rfl

theorem State.Inv.step_refines {s : State} (h : s.Inv) : Refines (Machine.step s) s.abstract.step := by
  obtain ⟨hcons, hnil⟩ := stepRunsTheScheduledOperation s h.admitted
  rcases hs : s.schedule with _ | ⟨x, rest⟩
  · have hsch : s.abstract.schedule = [] := hs
    rw [hnil hs, Abstract.step, hsch]
    rfl
  · rw [hcons x rest hs]
    have hchoice : s.abstract = { s.abstract with schedule := x :: rest } := by rw [← hs]; rfl
    rw [hchoice]
    exact (h.schedule rest).exec_refines x

/-- Settles O50: a step commutes with the abstraction, whichever outcome it has. -/
theorem arrayEngineRefinesTheListEngine : Obligations.ArrayEngineRefinesTheListEngine := by
  intro s h
  have hstep := h.step_refines
  exact ⟨fun t ht => by rwa [ht] at hstep, fun r hr => by rwa [hr] at hstep⟩

end Sys2Proof.Machine
end

section
/-! SUPPORT. The assembler's operations one by one (R121 to R126, R130), the cursor (R127), and what a `]` taken
in COLLECT alone can do (R123, R131). -/

namespace Sys2Proof.Machine

/-- An assembler operation that its byte selects is the assembler's step on that byte (R120). -/
theorem exec_of_decodeFa {s : State} {b : Byte} {i : Instr}
    (hsel : decodeFa s.cfg s.faState s.faCur b = i) : exec i s = faStep b s :=
  hsel ▸ exec_decodeFa s.cfg s.faState s.faCur b s

/-! ### A cleared buffer (R121, R124) -/

theorem State.read_clearFrame {s : State} {i : Nat} (hi : i < s.cfg.faCap) :
    s.clearFrame.faBuf.read i = some NUL :=
  Memory.read_zerosFrom (Nat.zero_le i) ((Nat.zero_add s.cfg.faCap).symm ▸ hi)

/-- Settles O16. -/
theorem startClearsTheBufferAndCollects : Obligations.StartClearsTheBufferAndCollects := by
  intro s hs hv
  have hsel : decodeFa s.cfg s.faState s.faCur LB = .faStart := by rw [hs, decodeFa_start]
  exact ⟨s.clearFrame, (exec_of_decodeFa hsel).trans (faStep_start hs hv),
    fun _ => State.read_clearFrame, rfl⟩

/-- Settles O17: under DATA the row of R73 for FA_RESTART does not exist. -/
theorem restartClearsTheBufferAndStaysCollecting :
    Obligations.RestartClearsTheBufferAndStaysCollecting := by
  refine fun s hs hv => ⟨fun hpol => ?_, fun hpol b hsel => ?_⟩
  · have hsel : decodeFa s.cfg s.faState s.faCur LB = .faRestart := by
      rw [hs, decodeFa_restart hpol]
    exact ⟨hsel, s.clearFrame, (performFa_selected hv hsel : execFaRestart s = _),
      fun _ => State.read_clearFrame, rfl⟩
  · rcases decodeFa_cases s.cfg s.faState s.faCur b with ⟨-, -, e⟩ | ⟨-, -, e⟩ | ⟨-, -, e⟩ |
      ⟨-, -, hrestart, -⟩ | ⟨-, -, -, -, e⟩ | ⟨-, -, -, -, e⟩
    case inr.inr.inr.inl => simp [hpol] at hrestart
    all_goals simp [e] at hsel

/-! ### Bytes outside a frame, and bytes of a frame (R122, R125, R126) -/

/-- Settles O18: selected or not, FA_NOISE answers the state it is given. -/
theorem noiseWritesNothing : Obligations.NoiseWritesNothing := by
  intro s b _ _
  rcases performFa_cases s b (.faNoise b) fun s => .next s with h | ⟨-, -, h⟩ <;> exact h

/-- Settles O19. -/
theorem dataStoresTheByteAtTheCursor : Obligations.DataStoresTheByteAtTheCursor := by
  intro s b hs hv he hr hfits
  have hroom : s.faCur < s.cfg.faCap - 1 := by omega
  have hsel : decodeFa s.cfg s.faState s.faCur b = .faData b := by
    rw [hs, decodeFa_data he hr hroom]
  exact ⟨_, (exec_of_decodeFa hsel).trans (faStep_data hs hv ⟨he, hr⟩ hroom),
    Memory.read_write_same _ _ _, fun _ hne => Memory.read_write_ne _ _ hne, rfl⟩

/-- Settles O20. -/
theorem overflowAbandonsTheFrameAndReports : Obligations.OverflowAbandonsTheFrameAndReports := by
  intro s b hs hv he hr hlast
  have hfull : ¬ s.faCur < s.cfg.faCap - 1 := by omega
  have hsel : decodeFa s.cfg s.faState s.faCur b = .faOverflow b := by
    rw [hs, decodeFa_overflow he hr hfull]
  exact (exec_of_decodeFa hsel).trans (faStep_overflow hs hv ⟨he, hr⟩ hfull)

/-! ### The receive timeout (R104, R130) -/

theorem execChRxTimeout_enabled {s : State} (hrx : s.cfg.rxTimeout ≠ 0) (hc : s.chCnt = 0)
    (hv : s.diagPend.valid = false) : execChRxTimeout s = .next (faTimeout s) :=
  if_pos (by simp [State.timeoutEnabled, hrx, hc, hv])

/-- Settles O13. -/
theorem timeoutAbandonsOnlyUnderThePolicy : Obligations.TimeoutAbandonsOnlyUnderThePolicy := by
  intro s hrx hc hv
  have hexec : exec .chRxTimeout s = .next (faTimeout s) := execChRxTimeout_enabled hrx hc hv
  rw [hexec]
  refine ⟨fun habandon => ?_, fun hkeep => ?_⟩
  · rw [faTimeout, if_pos habandon]
    rfl
  · have hnot : ¬ (s.cfg.abandonOnTimeout = true ∧ s.faState = .collect) := by
      rcases hkeep with h | h <;> simp [h]
    rw [faTimeout, if_neg hnot]

/-! ### FA_END and its dispatch (R123, R150) -/

/-- R76 selects dispatcher operations only, which `exec` and the dispatcher perform alike. -/
theorem exec_decodePayload (c : Config) (p : List Byte) (s : State) :
    exec (decodePayload c p) s = execCmd (decodePayload c p) s := by
  unfold decodePayload
  rcases decodeTokens_cases c (tokens p) (tokens_ne_nil p) with ⟨_, _, _, -, e⟩ | ⟨-, e⟩ | ⟨-, e⟩ |
    ⟨_, -, -, -, e⟩ | ⟨-, -, e⟩ | ⟨_, _, -, -, -, e⟩ | ⟨_, _, -, -, e⟩ <;> rw [e] <;> rfl

/-- Settles O21. -/
theorem frameEndRunsTheSelectedDispatch : Obligations.FrameEndRunsTheSelectedDispatch := by
  intro s hs hv hcur hw
  rw [exec_decodePayload]
  exact execFaEnd_eq hs hv hcur hw

/-- Settles O22: the state after FA_END is `State.afterFrameEnd`. -/
theorem frameEndLeavesTheDispatchEffect : Obligations.FrameEndLeavesTheDispatchEffect :=
  fun s hs hv hcur hw => ⟨s.afterFrameEnd, execFaEnd_next hs hv hcur hw,
    Memory.read_write_same _ _ _, fun _ hne => Memory.read_write_ne _ _ hne, rfl, rfl⟩

/-! ### The cursor (R127) -/

/-- Settles O24. -/
theorem cursorInsideAtReset : Obligations.CursorInsideAtReset :=
  fun _ hm => ⟨hm, fun _ => rfl⟩

/-- A buffer with a cursor inside is not empty, so the cursor 0 is inside it too. -/
theorem State.CursorInside.of_zero {s t : State} (h : s.CursorInside) (hcfg : t.cfg = s.cfg)
    (hcur : t.faCur = 0) : t.CursorInside :=
  ⟨hcur ▸ hcfg ▸ Nat.zero_lt_of_lt h.1, fun _ => hcur⟩

theorem State.CursorInside.faStep {s t : State} {b : Byte} (h : s.CursorInside)
    (hv : s.diagPend.valid = false) (hstep : Machine.faStep b s = .next t) : t.CursorInside := by
  rcases faStep_cases hv hstep with ⟨-, -, rfl⟩ | ⟨-, -, rfl⟩ | ⟨-, -, -, p, -, rfl⟩ |
    ⟨-, -, -, rfl⟩ | ⟨hs, -, -, hroom, rfl⟩ | ⟨-, -, -, -, rfl⟩
  · exact h.of_zero rfl rfl
  · exact h
  · exact h.of_zero rfl rfl
  · exact h.of_zero rfl rfl
  · exact ⟨Nat.add_lt_of_lt_sub hroom, fun hw => by simp [hs] at hw⟩
  · exact h.of_zero rfl rfl

theorem State.CursorInside.consume {s t : State} (h : s.CursorInside)
    (hstep : execChConsume s = .next t) : t.CursorInside := by
  rcases execChConsume_cases hstep with ⟨-, rfl⟩ | ⟨-, hv, -, b, -, hfa⟩
  · exact h
  · have hdequeued : State.CursorInside
        { s with chRd := (s.chRd + 1) % s.cfg.chCap, chCnt := s.chCnt - 1 } := h
    exact hdequeued.faStep hv hfa

/-- Settles O23: the CONSUMER moves the cursor inside the buffer, RESET sets it to 0, and no other agent
writes it. -/
theorem cursorStaysInsideTheBuffer : Obligations.CursorStaysInsideTheBuffer := by
  intro s t h hstep
  obtain ⟨-, ⟨-, rfl⟩ | ⟨x, rest, u, -, rfl, hx⟩⟩ := step_cases hstep
  · exact h
  have hu : State.CursorInside { s with schedule := rest } := h
  rcases hx with ⟨b, -, -, -, rfl⟩ | ⟨b, -, -, rfl⟩ | ⟨-, hc⟩ | ⟨-, rfl | ⟨-, rfl⟩⟩ | ⟨-, -, rfl⟩ |
    ⟨-, -, rfl⟩ | ⟨r, v, k, -, -, rfl⟩ | ⟨-, rfl⟩
  · exact h
  · exact h
  · exact hu.consume hc
  · exact h
  · exact h.of_zero rfl rfl
  · exact h
  · exact h
  · exact h
  · exact h.of_zero rfl rfl

/-! ### Only a frame end dispatches (R131) -/

/-- The gains or the LED differ, or a diagnostic other than DIAG_OVERFLOW was made. -/
def ShowsDispatch (s t : State) : Prop :=
  t.gain ≠ s.gain ∨ t.led ≠ s.led ∨ (t.diagPend ≠ s.diagPend ∧ t.diagPend.code ≠ diagOverflow)

theorem not_showsDispatch {s t : State} (hg : t.gain = s.gain) (hl : t.led = s.led)
    (hd : t.diagPend = s.diagPend ∨ t.diagPend.code = diagOverflow) : ¬ ShowsDispatch s t := by
  rintro (h | h | ⟨h, hcode⟩)
  · exact h hg
  · exact h hl
  · exact hd.elim h hcode

theorem faStep_showsDispatch {s t : State} {b : Byte} (hv : s.diagPend.valid = false)
    (hstep : faStep b s = .next t) (h : ShowsDispatch s t) : s.faState = .collect ∧ b = RB := by
  rcases faStep_cases hv hstep with ⟨-, -, rfl⟩ | ⟨-, -, rfl⟩ | ⟨hs, hb, -⟩ | ⟨-, -, -, rfl⟩ |
    ⟨-, -, -, -, rfl⟩ | ⟨-, -, -, -, rfl⟩
  · exact absurd h (not_showsDispatch rfl rfl (.inl rfl))
  · exact absurd h (not_showsDispatch rfl rfl (.inl rfl))
  · exact ⟨hs, hb⟩
  · exact absurd h (not_showsDispatch rfl rfl (.inl rfl))
  · exact absurd h (not_showsDispatch rfl rfl (.inl rfl))
  · exact absurd h (not_showsDispatch rfl rfl (.inr rfl))

/-- Settles O25: a disabled CH_CONSUME shows no dispatch, and an enabled one shows its assembler step's. -/
theorem onlyAFrameEndDispatches : Obligations.OnlyAFrameEndDispatches := by
  intro s t b _ hb hstep hshows
  replace hshows : ShowsDispatch s t := hshows
  rcases execChConsume_cases hstep with ⟨-, rfl⟩ | ⟨-, hv, -, b', hb', hfa⟩
  · exact absurd hshows (not_showsDispatch rfl rfl (.inl rfl))
  · obtain rfl : b' = b := Option.some.inj (hb'.symm.trans hb)
    have hcollect := faStep_showsDispatch (by exact hv) hfa hshows
    exact hcollect

end Sys2Proof.Machine
end

section
/-! SUPPORT. Resynchronisation (R132): under the eager schedule one `]` ahead of a frame brings the assembler to
WAIT, and the frame is then collected and dispatched whole. -/

namespace Sys2Proof.Machine

theorem eagerSchedule_append (p q : List Byte) :
    eagerSchedule (p ++ q) = eagerSchedule p ++ eagerSchedule q := by
  induction p with
  | nil => rfl
  | cons b p ih => simp [eagerSchedule, ih]

/-! ### The assembler on noise and on `]` -/

theorem faStep_noise {s : State} {b : Byte} (hs : s.faState = .wait) (hv : s.diagPend.valid = false)
    (hb : b ≠ LB) : faStep b s = .next s := by
  have hsel : decodeFa s.cfg s.faState s.faCur b = .faNoise b := by rw [hs, decodeFa_noise hb]
  rw [faStep, hsel]
  exact (performFa_selected hv hsel : execFaNoise b s = _)

theorem State.Inv.faStep_end {s : State} (h : s.Inv) (hs : s.faState = .collect)
    (hv : s.diagPend.valid = false) : Machine.faStep RB s = .next s.afterFrameEnd := by
  have hsel : decodeFa s.cfg s.faState s.faCur RB = .faEnd := by rw [hs, decodeFa_end]
  rw [Machine.faStep, hsel]
  exact execFaEnd_next hs hv h.faCurBound h.faWritten

/-! ### What the runs leave -/

/-- The effect of a dispatch of `p` in this state. -/
def State.effectOf (s : State) (p : List Byte) : Gains × Bool × DiagPend :=
  dispatchEffect s.cfg s.dropCnt s.ovfCnt s.gain s.led p

/-- Only the channel's storage, the frame, the trace and the schedule differ. -/
def OnlyFrames (s t : State) : Prop :=
  t = { s with
    chBuf := t.chBuf, chRd := t.chRd, chWr := t.chWr, faState := t.faState, faCur := t.faCur
    faBuf := t.faBuf, trace := t.trace, schedule := t.schedule }

theorem OnlyFrames.trans {s u t : State} (hu : OnlyFrames s u) (ht : OnlyFrames u t) :
    OnlyFrames s t := by
  unfold OnlyFrames at hu
  rw [hu] at ht
  exact ht

theorem OnlyFrames.cfg_eq {s t : State} (h : OnlyFrames s t) : t.cfg = s.cfg :=
  (congrArg State.cfg h).trans rfl

theorem OnlyFrames.effectOf_eq {s t : State} (h : OnlyFrames s t) (p : List Byte) :
    t.effectOf p = s.effectOf p :=
  (congrArg (State.effectOf · p) h).trans rfl

/-- `t` waits for the next byte of a frame that began after `s` and has the bytes `p` so far. -/
structure Collecting (s : State) (p : List Byte) (rest : List AgentStep) (t : State) : Prop where
  idle : t.Idle
  collect : t.faState = .collect
  collected : t.collected = p
  schedule : t.schedule = rest
  frame : OnlyFrames s t

/-- `t` waits for a `[`, with these gains and LED, and otherwise all that a dispatch consults is as in
`s`. -/
structure Waiting (s : State) (g : Gains) (l : Bool) (rest : List AgentStep) (t : State) : Prop where
  idle : t.Idle
  wait : t.faState = .wait
  schedule : t.schedule = rest
  cfg : t.cfg = s.cfg
  dropCnt : t.dropCnt = s.dropCnt
  ovfCnt : t.ovfCnt = s.ovfCnt
  gain : t.gain = g
  led : t.led = l

theorem Waiting.effectOf_eq {s t : State} {g : Gains} {l : Bool} {rest : List AgentStep}
    (h : Waiting s g l rest t) (p : List Byte) :
    t.effectOf p = dispatchEffect s.cfg s.dropCnt s.ovfCnt g l p := by
  rw [State.effectOf, h.cfg, h.dropCnt, h.ovfCnt, h.gain, h.led]

/-! ### One byte under the eager schedule -/

theorem State.Inv.drained {s : State} (h : s.Inv) : s.drained.Inv := by
  unfold State.drained
  split
  · exact { h with diagCode := fun hv => by cases hv }
  · exact h

theorem State.drained_of_pending {s : State} (h : s.diagPend.valid = true) :
    s.drained = { s with
      trace := s.trace ++ [.diag s.diagPend.code s.diagPend.d0 s.diagPend.d1 s.diagPend.d2]
      diagPend := { s.diagPend with valid := false } } := if_pos h

section Byte

variable {s u : State} {b : Byte} {p : List Byte} {rest : List AgentStep}

/-- `[` in WAIT begins a frame (R121). -/
theorem State.Idle.run_start_byte (h : s.Idle) (k : Nat) (hs : s.faState = .wait)
    (hsch : s.schedule = eagerSchedule [LB] ++ rest) :
    ∃ t : State, Host.Core.run core (k + 3) s = Host.Core.run core k t ∧ Collecting s [] rest t := by
  obtain ⟨hrun, hidle⟩ := h.run_quiet_byte k hsch (faStep_start hs h.notPending) h.notPending
  exact ⟨_, hrun, hidle, rfl, rfl, rfl, rfl⟩

/-- A payload byte that fits is collected (R125). -/
theorem Collecting.run_data_byte (h : Collecting s p (eagerSchedule [b] ++ rest) u) (k : Nat)
    (hb : b ≠ RB ∧ ¬ (b = LB ∧ s.cfg.lbracketPolicy = .restart))
    (hfits : p.length + 1 < s.cfg.faCap) :
    ∃ t : State, Host.Core.run core (k + 3) u = Host.Core.run core k t ∧
      Collecting s (p ++ [b]) rest t := by
  have hroom : u.faCur < u.cfg.faCap - 1 := by
    rw [← u.length_collected, h.collected, h.frame.cfg_eq]
    omega
  obtain ⟨hrun, hidle⟩ := h.idle.run_quiet_byte k h.schedule
    (faStep_data h.collect h.idle.notPending (h.frame.cfg_eq.symm ▸ hb) hroom) h.idle.notPending
  refine ⟨_, hrun, hidle, h.collect, ?_, rfl, h.frame.trans rfl⟩
  exact (u.collected_append b).trans (congrArg (· ++ [b]) h.collected)

/-- `]` in COLLECT: the collected bytes are dispatched, and the diagnostic is drained (R123, R171). -/
theorem State.Idle.run_end_byte (h : s.Idle) (k : Nat) (hs : s.faState = .collect)
    (hsch : s.schedule = eagerSchedule [RB] ++ rest) :
    let e := s.effectOf (s.collected.takeWhile (· ≠ NUL))
    ∃ t : State, Host.Core.run core (k + 3) s = Host.Core.run core k t ∧ Waiting s e.1 e.2.1 rest t ∧
      t.trace.getLast? = some (.diag e.2.2.code e.2.2.d0 e.2.2.d1 e.2.2.d2) := by
  have hinv := (h.schedule (.sinkDrain :: rest)).inv_handedOver RB
  have hfa := hinv.faStep_end hs h.notPending
  have hend := ((hinv.faStep h.notPending hfa).schedule rest).drained
  have hrun := h.run_eager_byte k hsch hfa
  rw [State.drained_of_pending (dispatchEffect_valid ..)] at hend hrun
  exact ⟨_, hrun, ⟨⟨hend, h.empty, rfl⟩, rfl, rfl, rfl, rfl, rfl, rfl, rfl⟩, List.getLast?_concat⟩

end Byte

/-! ### A whole frame -/

/-- A payload that fits is collected, by induction on its bytes. -/
theorem Collecting.run_payload {s u : State} {p q : List Byte} {rest : List AgentStep}
    (h : Collecting s p (eagerSchedule q ++ rest) u) (k : Nat)
    (hq : ∀ b ∈ q, b ≠ RB ∧ ¬ (b = LB ∧ s.cfg.lbracketPolicy = .restart))
    (hfits : p.length + q.length < s.cfg.faCap) :
    ∃ t : State, Host.Core.run core (k + 3 * q.length) u = Host.Core.run core k t ∧
      Collecting s (p ++ q) rest t := by
  induction q generalizing p u with
  | nil => exact ⟨u, rfl, (List.append_nil p).symm ▸ h⟩
  | cons b q ih =>
    rw [List.length_cons] at hfits
    obtain ⟨v, hfirst, hv⟩ := h.run_data_byte (b := b) (rest := eagerSchedule q ++ rest)
      (k + 3 * q.length) (hq b List.mem_cons_self) (by omega)
    obtain ⟨t, hrest, ht⟩ := ih hv (fun x hx => hq x (List.mem_cons_of_mem b hx))
      (by rw [List.length_append, List.length_singleton]; omega)
    exact ⟨t, hfirst.trans hrest, List.append_cons p b q ▸ ht⟩

/-- From WAIT a frame is collected from its start, and its payload dispatched. -/
theorem State.Idle.run_frame {s : State} {p : List Byte} {rest : List AgentStep} (h : s.Idle)
    (hs : s.faState = .wait) (hfits : p.length + 1 ≤ s.cfg.faCap)
    (hp : ∀ b ∈ p, b ≠ LB ∧ b ≠ RB ∧ b ≠ NUL)
    (hsch : s.schedule = eagerSchedule (frameOf p) ++ rest) :
    let e := s.effectOf p
    ∃ t : State, Host.Core.run core (3 + 3 * p.length + 3) s = .next t ∧ t.Idle ∧
      t.faState = .wait ∧ t.schedule = rest ∧ t.gain = e.1 ∧ t.led = e.2.1 ∧
      t.trace.getLast? = some (.diag e.2.2.code e.2.2.d0 e.2.2.d1 e.2.2.d2) := by
  have hparts : s.schedule =
      eagerSchedule [LB] ++ (eagerSchedule p ++ (eagerSchedule [RB] ++ rest)) := by
    rw [hsch, frameOf, ← List.singleton_append, eagerSchedule_append, eagerSchedule_append]
    simp only [List.append_assoc]
  obtain ⟨u, hstart, hu⟩ := h.run_start_byte (3 + 3 * p.length) hs hparts
  obtain ⟨v, hpayload, hv⟩ := hu.run_payload 3 (fun b hb => ⟨(hp b hb).2.1, fun e => (hp b hb).1 e.1⟩)
    (by rw [List.length_nil]; omega)
  obtain ⟨t, hend, ht, hlast⟩ := hv.idle.run_end_byte 0 hv.collect hv.schedule
  have hwhole : v.collected.takeWhile (· ≠ NUL) = p := by
    rw [hv.collected, List.nil_append]
    exact List.takeWhile_eq_self_iff.2 fun b hb => by simpa using (hp b hb).2.2
  rw [hwhole, hv.frame.effectOf_eq] at ht hlast
  exact ⟨t, (hstart.trans hpayload).trans hend, ht.idle, ht.wait, ht.schedule, ht.gain, ht.led, hlast⟩

/-! ### The `]` ahead of it -/

/-- The gains and the LED that a `]` leaves: those of its dispatch, if a frame was being collected. -/
def State.afterEndByte (s : State) : Gains × Bool :=
  let first := s.effectOf (s.collected.takeWhile (· ≠ NUL))
  if s.faState = .wait then (s.gain, s.led) else (first.1, first.2.1)

/-- A `]` leads to WAIT: from WAIT as noise, from COLLECT as the end of the frame. -/
theorem State.Idle.run_resync {s : State} {rest : List AgentStep} (h : s.Idle) (k : Nat)
    (hsch : s.schedule = eagerSchedule [RB] ++ rest) :
    ∃ t : State, Host.Core.run core (k + 3) s = Host.Core.run core k t ∧
      Waiting s s.afterEndByte.1 s.afterEndByte.2 rest t := by
  unfold State.afterEndByte
  rcases hs : s.faState with _ | _
  · obtain ⟨hrun, hidle⟩ :=
      h.run_quiet_byte k hsch (faStep_noise hs h.notPending (by decide)) h.notPending
    exact ⟨_, hrun, hidle, hs, rfl, rfl, rfl, rfl, rfl, rfl⟩
  · obtain ⟨t, hrun, ht, -⟩ := h.run_end_byte k hs hsch
    exact ⟨t, hrun, ht⟩

/-- Settles O26: the first `]` leads to WAIT whatever the assembler was doing, and the frame after it is
collected from its start. -/
theorem oneEndByteResynchronises : Obligations.OneEndByteResynchronises := by
  intro s p rest hinv hempty hpend hfits hp hsch
  have h : s.Idle := ⟨hinv, hempty, hpend⟩
  rw [eagerSchedule_append, List.append_assoc] at hsch
  obtain ⟨u, hfirst, hu⟩ := h.run_resync (3 + 3 * p.length + 3) hsch
  obtain ⟨t, hframe, ht, hwait, hrest, hgain, hled, hlast⟩ :=
    hu.idle.run_frame hu.wait (hu.cfg ▸ hfits) hp hu.schedule
  rw [hu.effectOf_eq] at hgain hled hlast
  have hlen : 3 * (p.length + 3) = 3 + 3 * p.length + 3 + 3 := by omega
  have hrun : Host.Core.run core (3 * (p.length + 3)) s = .next t := by rw [hlen, hfirst, hframe]
  exact ⟨t, hrun, hrest, hwait, ht.empty, ht.notPending, hgain, hled, hlast⟩

end Sys2Proof.Machine
end

section
/-! SUPPORT. The tokenizer on a payload (R151): it splits at every comma and nowhere else. -/

namespace Sys2Proof

theorem length_consFirst (b : Byte) {ts : List Token} (h : ts ≠ []) :
    (consFirst b ts).length = ts.length := by
  cases ts with
  | nil => exact absurd rfl h
  | cons t ts => rfl

theorem forall_mem_consFirst {P : Token → Prop} {b : Byte} {ts : List Token} (h : ∀ t ∈ ts, P t)
    (hb : P [b]) (hcons : ∀ t, P t → P (b :: t)) : ∀ t ∈ consFirst b ts, P t := by
  cases ts with
  | nil => simpa using hb
  | cons t ts =>
    rw [consFirst_cons, List.forall_mem_cons]
    exact ⟨hcons t (h t List.mem_cons_self), fun u hu => h u (List.mem_cons_of_mem t hu)⟩

theorem joinTokens_consFirst (b : Byte) (ts : List Token) :
    joinTokens (consFirst b ts) = b :: joinTokens ts := by
  rcases ts with _ | ⟨t, _ | ⟨u, ts⟩⟩ <;> rfl

theorem joinTokens_nil_cons {ts : List Token} (h : ts ≠ []) :
    joinTokens ([] :: ts) = COMMA :: joinTokens ts := by
  cases ts with
  | nil => exact absurd rfl h
  | cons t ts => rfl

theorem length_tokens (p : List Byte) : (tokens p).length = p.count COMMA + 1 := by
  induction p with
  | nil => rfl
  | cons b p ih =>
    by_cases hb : b = COMMA
    · subst hb; rw [tokens_comma, List.length_cons, ih, List.count_cons_self]
    · rw [tokens_cons_of_ne hb, length_consFirst b (tokens_ne_nil p), ih, List.count_cons_of_ne hb]

theorem comma_notMem_tokens (p : List Byte) : ∀ t ∈ tokens p, COMMA ∉ t := by
  induction p with
  | nil => simp
  | cons b p ih =>
    by_cases hb : b = COMMA
    · subst hb
      rw [tokens_comma, List.forall_mem_cons]
      exact ⟨List.not_mem_nil, ih⟩
    · rw [tokens_cons_of_ne hb]
      exact forall_mem_consFirst ih (by simpa using Ne.symm hb)
        fun t ht => List.not_mem_cons_of_ne_of_not_mem (Ne.symm hb) ht

theorem joinTokens_tokens (p : List Byte) : joinTokens (tokens p) = p := by
  induction p with
  | nil => rfl
  | cons b p ih =>
    by_cases hb : b = COMMA
    · subst hb; rw [tokens_comma, joinTokens_nil_cons (tokens_ne_nil p), ih]
    · rw [tokens_cons_of_ne hb, joinTokens_consFirst, ih]

/-- Settles O2, each fact by induction on the payload. -/
theorem tokensSplitAtEveryComma : Obligations.TokensSplitAtEveryComma :=
  fun p => ⟨length_tokens p, comma_notMem_tokens p, joinTokens_tokens p⟩

end Sys2Proof
end

section
/-! SUPPORT. The command dispatcher (R154 to R164): the order of its checks, its operations one by one, and what
a step can do to the gains, the LED and the diagnostic register (R170, R171). -/

namespace Sys2Proof.Machine

/-! ### The order of the checks (R155) -/

/-- A first token outside the keyword table names no keyword. -/
theorem keywordOf_eq_none {c : Config} {t : Token} (h : (keywordTable c).lookup t = none) :
    keywordOf c t = none := by
  rwa [keywordTable_lookup, Option.map_eq_none_iff] at h

/-- A first token in the keyword table is the bytes of a keyword with that argument count. -/
theorem exists_keyword_of_lookup {c : Config} {t : Token} {n : Nat}
    (h : (keywordTable c).lookup t = some n) :
    ∃ k : Keyword, k.bytes = t ∧ k.argc = n ∧ k.present c = true := by
  rw [keywordTable_lookup, Option.map_eq_some_iff] at h
  obtain ⟨k, hk, hn⟩ := h
  obtain ⟨rfl, hp⟩ := keywordOf_eq_some hk
  exact ⟨k, rfl, hn, hp⟩

/-- Settles O3, check by check. -/
theorem dispatchSelectionFollowsCheckOrder : Obligations.DispatchSelectionFollowsCheckOrder := by
  refine fun c kw args => ⟨fun h => ?unknown, fun n h hn => ?count, fun p i d hkw hargs => ?pid,
    fun hkw hen hargs => ?status, fun a hkw hargs => ?led⟩
  case unknown => exact decodeTokens_unknown (keywordOf_eq_none h) args
  case count =>
    obtain ⟨k, rfl, rfl, hp⟩ := exists_keyword_of_lookup h
    exact ⟨k, rfl, rfl, decodeTokens_argcMismatch hp hn⟩
  case pid => subst hkw hargs; exact decodeTokens_pid p i d
  case status => subst hkw hargs; exact decodeTokens_status hen
  case led => subst hkw hargs; rfl

/-! ### The operations one by one (R156 to R162) -/

/-- Settles O28. -/
theorem pidStoresThreeGainsAndEchoesThem : Obligations.PidStoresThreeGainsAndEchoesThem :=
  fun s p i d hv => (performCmd_selected hv (decodeTokens_pid p i d) : execCmdPid p i d s = _)

/-- Settles O29. -/
theorem ledCommandsWriteTheLedAndConfirm : Obligations.LedCommandsWriteTheLedAndConfirm :=
  fun s hv => ⟨(performCmd_selected hv decodeTokens_ledOn : execCmdLedOn s = _),
    (performCmd_selected hv decodeTokens_ledOff : execCmdLedOff s = _)⟩

/-- Settles O30. -/
theorem badLedArgumentOnlyReports : Obligations.BadLedArgumentOnlyReports :=
  fun s a hv hon hoff =>
    (performCmd_selected hv (decodeTokens_ledBadarg hon hoff) : execCmdLedBadarg a s = _)

/-- Settles O31. -/
theorem statusReportsTheCounters : Obligations.StatusReportsTheCounters :=
  fun s hv hen => (performCmd_selected hv (decodeTokens_status hen) : execCmdStatus s = _)

/-- Only `STATUS` can be missing from the keyword table (R154). -/
theorem present_of_status_enabled {c : Config} {k : Keyword}
    (h : k = .status → c.statusEnabled = true) : k.present c = true := by
  cases k with
  | pid => rfl
  | led => rfl
  | status => exact h rfl

/-- Settles O32. -/
theorem argumentCountMismatchOnlyReports : Obligations.ArgumentCountMismatchOnlyReports := by
  intro s k args hv hen hn
  have hsel : decodeTokens s.cfg (k.bytes :: args) = .cmdArgcMismatch k args :=
    decodeTokens_argcMismatch (present_of_status_enabled hen) hn
  exact (performCmd_selected hv hsel : execCmdArgcMismatch k args s = _)

/-- Settles O33. -/
theorem unknownKeywordOnlyReports : Obligations.UnknownKeywordOnlyReports := by
  intro s kw args hv hkw
  have hsel : decodeTokens s.cfg (kw :: args) = .cmdUnknown kw args :=
    decodeTokens_unknown (keywordOf_eq_none hkw) args
  exact (performCmd_selected hv hsel : execCmdUnknown kw args s = _)

/-! ### The diagnostic register (R170, R171) -/

/-- Settles O41. -/
theorem drainEmitsThePendingDiagnostic : Obligations.DrainEmitsThePendingDiagnostic :=
  fun _ hv => if_pos hv

/-- While a diagnostic is pending a CH_CONSUME is disabled (R103). -/
theorem execChConsume_pending {s t : State} (hv : s.diagPend.valid = true)
    (h : execChConsume s = .next t) : t = s := by
  rw [execChConsume_disabled (.inr hv)] at h
  exact (Host.Outcome.next.inj h).symm

/-- Settles O42: only a drain or RESET writes the diagnostic register while it is valid. -/
theorem pendingDiagnosticIsNeverOverwritten : Obligations.PendingDiagnosticIsNeverOverwritten := by
  intro s t h hv
  obtain ⟨-, ⟨-, rfl⟩ | ⟨x, rest, u, hs, rfl, hx⟩⟩ := step_cases h
  · exact .inl rfl
  rcases hx with ⟨b, -, -, -, rfl⟩ | ⟨b, -, -, rfl⟩ | ⟨-, hc⟩ | ⟨-, rfl | ⟨-, rfl⟩⟩ | ⟨-, -, rfl⟩ |
    ⟨rfl, -, rfl⟩ | ⟨r, v, k, -, -, rfl⟩ | ⟨rfl, -⟩
  · exact .inl rfl
  · exact .inl rfl
  · obtain rfl := execChConsume_pending (by exact hv) hc
    exact .inl rfl
  · exact .inl rfl
  · exact .inl rfl
  · exact .inl rfl
  · exact .inr (.inl ⟨congrArg List.head? hs, rfl, rfl⟩)
  · exact .inl rfl
  · exact .inr (.inr (congrArg List.head? hs))

/-! ### The gains and the LED across a step (R163, R164) -/

/-- Gains and LED stay; or a CMD_PID stores and echoes three conversions and leaves the LED; or the LED takes a
value that is confirmed and the gains stay. -/
def CommandWrites (s t : State) : Prop :=
  (t.gain = s.gain ∧ t.led = s.led) ∨
  (t.led = s.led ∧ t.diagPend = ⟨true, diagPidOk, t.gain.p, t.gain.i, t.gain.d⟩ ∧
    ∃ p i d, t.gain = ⟨numConv s.cfg p, numConv s.cfg i, numConv s.cfg d⟩) ∨
  (t.gain = s.gain ∧ t.diagPend = ⟨true, diagLedOk, bitWord t.led, 0, 0⟩)

theorem faStep_commandWrites {s t : State} {b : Byte} (hv : s.diagPend.valid = false)
    (h : faStep b s = .next t) : CommandWrites s t := by
  rcases faStep_cases hv h with ⟨-, -, rfl⟩ | ⟨-, -, rfl⟩ | ⟨-, -, -, p, -, rfl⟩ | ⟨-, -, -, rfl⟩ |
    ⟨-, -, -, -, rfl⟩ | ⟨-, -, -, -, rfl⟩
  · exact .inl ⟨rfl, rfl⟩
  · exact .inl ⟨rfl, rfl⟩
  · rcases dispatchEffect_cases s.cfg s.dropCnt s.ovfCnt s.gain s.led p with ⟨x, y, z, e⟩ | ⟨v, e⟩ |
      ⟨code, d0, d1, -, e⟩ <;> rw [e]
    · exact .inr (.inl ⟨rfl, rfl, x, y, z, rfl⟩)
    · exact .inr (.inr ⟨rfl, rfl⟩)
    · exact .inl ⟨rfl, rfl⟩
  · exact .inl ⟨rfl, rfl⟩
  · exact .inl ⟨rfl, rfl⟩
  · exact .inl ⟨rfl, rfl⟩

theorem execChConsume_commandWrites {s t : State} (h : execChConsume s = .next t) :
    CommandWrites s t := by
  rcases execChConsume_cases h with ⟨-, rfl⟩ | ⟨-, hv, -, b, -, hfa⟩
  · exact .inl ⟨rfl, rfl⟩
  · have hwrites := faStep_commandWrites (by exact hv) hfa
    exact hwrites

/-- Of the steps but RESET only a CH_CONSUME writes the gains or the LED. -/
theorem step_gain_led {s t : State} (h : step s = .next t)
    (hr : s.schedule.head? ≠ some .hostReset) :
    (t.gain = s.gain ∧ t.led = s.led) ∨
      (s.schedule.head? = some .consumerConsume ∧ CommandWrites s t) := by
  obtain ⟨-, ⟨-, rfl⟩ | ⟨x, rest, u, hs, rfl, hx⟩⟩ := step_cases h
  · exact .inl ⟨rfl, rfl⟩
  rcases hx with ⟨b, -, -, -, rfl⟩ | ⟨b, -, -, rfl⟩ | ⟨rfl, hc⟩ | ⟨-, rfl | ⟨-, rfl⟩⟩ | ⟨-, -, rfl⟩ |
    ⟨-, -, rfl⟩ | ⟨r, v, k, -, -, rfl⟩ | ⟨rfl, -⟩
  · exact .inl ⟨rfl, rfl⟩
  · exact .inl ⟨rfl, rfl⟩
  · have hwrites := execChConsume_commandWrites hc
    exact .inr ⟨congrArg List.head? hs, hwrites⟩
  · exact .inl ⟨rfl, rfl⟩
  · exact .inl ⟨rfl, rfl⟩
  · exact .inl ⟨rfl, rfl⟩
  · exact .inl ⟨rfl, rfl⟩
  · exact .inl ⟨rfl, rfl⟩
  · exact absurd (congrArg List.head? hs) hr

/-- Settles O34. -/
theorem gainsAndLedChangeOnlyByTheirCommands : Obligations.GainsAndLedChangeOnlyByTheirCommands := by
  intro s t h hr
  rcases step_gain_led h hr with ⟨hg, hl⟩ | ⟨hs, ⟨hg, hl⟩ | ⟨hl, hd, hconv⟩ | ⟨hg, hd⟩⟩
  · exact ⟨fun hne => absurd hg hne, fun hne => absurd hl hne⟩
  · exact ⟨fun hne => absurd hg hne, fun hne => absurd hl hne⟩
  · exact ⟨fun _ => ⟨hl, hs, hd, hconv⟩, fun hne => absurd hl hne⟩
  · exact ⟨fun hne => absurd hg hne, fun _ => ⟨hg, hs, hd⟩⟩

end Sys2Proof.Machine
end

section
/-! SUPPORT. The number grammar (R153): what the parser reads is a number, and no number at the front of the token is
longer. Each part is read greedily: a part that the grammar spells is read whole, and what the parser reads beyond
it comes out of the rest. -/

namespace Sys2Proof.Machine

/-! ### Bytes -/

theorem digit_ne {b : Byte} (h : isDigit b = true) : isWs b = false ∧ b ≠ 0x2D#8 ∧ b ≠ 0x2B#8 := by
  revert h b; decide

/-- The byte that begins an exponent belongs to no mantissa. -/
theorem exponentByte_ne {e : Byte} (h : e = 0x65#8 ∨ e = 0x45#8) :
    isDigit e = false ∧ e ≠ 0x2E#8 := by
  rcases h with rfl | rfl <;> decide

/-! ### The parts, as the grammar spells them -/

/-- `mant`: digits, then perhaps a point and digits, with a digit on one side of the point at least. -/
theorem spellsMantissa_iff {intPart fracPart m : List Byte} :
    SpellsMantissa intPart fracPart m ↔
      (∀ b ∈ intPart, isDigit b = true) ∧ (∀ b ∈ fracPart, isDigit b = true) ∧
        ¬ (intPart = [] ∧ fracPart = []) ∧
        (m = intPart ++ 0x2E#8 :: fracPart ∨ (fracPart = [] ∧ m = intPart)) := by
  unfold SpellsMantissa SpellsDigits
  constructor
  · rintro (⟨⟨hne, hi⟩, rfl, rfl | rfl⟩ | ⟨⟨hne, hi⟩, ⟨-, hf⟩, rfl⟩ | ⟨rfl, ⟨hne, hf⟩, rfl⟩)
    · exact ⟨hi, by simp, fun h => hne h.1, .inr ⟨rfl, rfl⟩⟩
    · exact ⟨hi, by simp, fun h => hne h.1, .inl rfl⟩
    · exact ⟨hi, hf, fun h => hne h.1, .inl rfl⟩
    · exact ⟨by simp, hf, fun h => hne h.2, .inl rfl⟩
  · rintro ⟨hi, hf, hne, rfl | ⟨rfl, rfl⟩⟩
    · by_cases hi0 : intPart = []
      · exact .inr (.inr ⟨hi0, ⟨fun hf0 => hne ⟨hi0, hf0⟩, hf⟩, by simp [hi0]⟩)
      by_cases hf0 : fracPart = []
      · exact .inl ⟨⟨hi0, hi⟩, hf0, .inr (by simp [hf0])⟩
      · exact .inr (.inl ⟨⟨hi0, hi⟩, ⟨hf0, hf⟩, rfl⟩)
    · exact .inl ⟨⟨fun hi0 => hne ⟨hi0, rfl⟩, hi⟩, rfl, .inl rfl⟩

/-- A mantissa begins with a digit or a point. -/
theorem SpellsMantissa.exists_cons {intPart fracPart m : List Byte}
    (h : SpellsMantissa intPart fracPart m) :
    ∃ b m', m = b :: m' ∧ isWs b = false ∧ b ≠ 0x2D#8 ∧ b ≠ 0x2B#8 := by
  obtain ⟨hi, -, hne, hm⟩ := spellsMantissa_iff.1 h
  cases intPart with
  | nil =>
    rcases hm with rfl | ⟨hf, -⟩
    · exact ⟨_, _, rfl, by decide⟩
    · exact absurd ⟨rfl, hf⟩ hne
  | cons b i =>
    have hb := digit_ne (hi b List.mem_cons_self)
    rcases hm with rfl | ⟨-, rfl⟩
    · exact ⟨b, _, rfl, hb⟩
    · exact ⟨b, i, rfl, hb⟩

/-! ### White space and the sign -/

theorem takeSign_reads (s : List Byte) :
    ∃ sg, s = sg ++ (takeSign s).2 ∧ SpellsSign (takeSign s).1 sg := by
  cases s with
  | nil => exact ⟨[], rfl, .inl ⟨rfl, rfl⟩⟩
  | cons b s =>
    by_cases hm : b = 0x2D#8
    · subst hm; exact ⟨[0x2D#8], rfl, .inr (.inr ⟨rfl, rfl⟩)⟩
    by_cases hp : b = 0x2B#8
    · subst hp; exact ⟨[0x2B#8], rfl, .inr (.inl ⟨rfl, rfl⟩)⟩
    · have e : takeSign (b :: s) = (false, b :: s) := by rw [takeSign, if_neg hm, if_neg hp]
      exact ⟨[], by rw [e, List.nil_append], .inl ⟨rfl, by rw [e]⟩⟩

/-- A sign that the grammar spells is read whole, when no other follows it. -/
theorem SpellsSign.takeSign_append {neg : Bool} {sg : List Byte} (h : SpellsSign neg sg) {b : Byte}
    (hm : b ≠ 0x2D#8) (hp : b ≠ 0x2B#8) (w : List Byte) :
    takeSign (sg ++ b :: w) = (neg, b :: w) := by
  rcases h with ⟨rfl, rfl⟩ | ⟨rfl, rfl⟩ | ⟨rfl, rfl⟩
  · rw [List.nil_append, takeSign, if_neg hm, if_neg hp]
  · rfl
  · rfl

/-- White space ahead of a sign and a mantissa is skipped, and no more. -/
theorem SpellsSign.dropWhile_ws {neg : Bool} {sg ws : List Byte} (h : SpellsSign neg sg)
    (hws : ∀ b ∈ ws, isWs b = true) {b : Byte} (hb : isWs b = false) (w : List Byte) :
    (ws ++ (sg ++ b :: w)).dropWhile isWs = sg ++ b :: w := by
  rw [List.dropWhile_append_of_pos hws]
  rcases h with ⟨rfl, -⟩ | ⟨rfl, -⟩ | ⟨rfl, -⟩
  · exact List.dropWhile_cons_of_neg (by simp [hb])
  · rfl
  · rfl

/-! ### The fraction -/

theorem takeFraction_point {intPart s : List Byte}
    (h : ¬ (intPart = [] ∧ s.takeWhile isDigit = [])) :
    takeFraction intPart (0x2E#8 :: s) = (s.takeWhile isDigit, s.dropWhile isDigit) :=
  if_pos ⟨rfl, h⟩

/-- Either no fraction is read, or a point and the digits after it are. -/
theorem takeFraction_cases (intPart s : List Byte) :
    takeFraction intPart s = ([], s) ∨
      ∃ s', s = 0x2E#8 :: s' ∧
        takeFraction intPart s = (s'.takeWhile isDigit, s'.dropWhile isDigit) := by
  cases s with
  | nil => exact .inl rfl
  | cons b s =>
    by_cases h : b = 0x2E#8 ∧ ¬ (intPart = [] ∧ s.takeWhile isDigit = [])
    · exact .inr ⟨s, by rw [h.1], if_pos h⟩
    · exact .inl (if_neg h)

/-- What is left after the fraction is no longer than what was there. -/
theorem length_takeFraction_le (intPart s : List Byte) :
    (takeFraction intPart s).2.length ≤ s.length := by
  rcases takeFraction_cases intPart s with e | ⟨s', rfl, e⟩ <;> rw [e]
  exact (List.dropWhile_suffix isDigit).length_le.trans (Nat.le_succ _)

/-- The integer part and the fraction that are read are a mantissa, unless both are empty. -/
theorem takeFraction_reads {u : List Byte}
    (hne : ¬ (u.takeWhile isDigit = [] ∧
      (takeFraction (u.takeWhile isDigit) (u.dropWhile isDigit)).1 = [])) :
    ∃ m, u = m ++ (takeFraction (u.takeWhile isDigit) (u.dropWhile isDigit)).2 ∧
      SpellsMantissa (u.takeWhile isDigit)
        (takeFraction (u.takeWhile isDigit) (u.dropWhile isDigit)).1 m := by
  have hu := List.takeWhile_append_dropWhile (p := isDigit) (l := u)
  rcases takeFraction_cases (u.takeWhile isDigit) (u.dropWhile isDigit) with e | ⟨s, hs, e⟩ <;>
    rw [e] at hne ⊢
  · exact ⟨u.takeWhile isDigit, hu.symm, spellsMantissa_iff.2
      ⟨fun _ => List.mem_takeWhile_imp, by simp, hne, .inr ⟨rfl, rfl⟩⟩⟩
  · refine ⟨u.takeWhile isDigit ++ 0x2E#8 :: s.takeWhile isDigit, ?_, spellsMantissa_iff.2
      ⟨fun _ => List.mem_takeWhile_imp, fun _ => List.mem_takeWhile_imp, hne, .inl rfl⟩⟩
    rw [List.append_assoc, List.cons_append, List.takeWhile_append_dropWhile, ← hs, hu]

/-- A mantissa that the grammar spells is read whole: some digit is read, and what is left is no longer than
what follows the mantissa, and is exactly that where an exponent begins. -/
theorem SpellsMantissa.takeFraction_append {intPart fracPart m : List Byte}
    (h : SpellsMantissa intPart fracPart m) (w : List Byte) :
    ∃ F v, takeFraction ((m ++ w).takeWhile isDigit) ((m ++ w).dropWhile isDigit) = (F, v) ∧
      ¬ ((m ++ w).takeWhile isDigit = [] ∧ F = []) ∧ v.length ≤ w.length ∧
      (∀ e w', w = e :: w' → (e = 0x65#8 ∨ e = 0x45#8) → v = w) := by
  obtain ⟨hi, hf, hne, rfl | ⟨rfl, rfl⟩⟩ := spellsMantissa_iff.1 h
  · have hpoint : ¬ isDigit 0x2E#8 = true := by decide
    have hne' : ¬ (intPart = [] ∧ (fracPart ++ w).takeWhile isDigit = []) := by
      rw [List.takeWhile_append_of_pos hf, List.append_eq_nil_iff]
      exact fun h => hne ⟨h.1, h.2.1⟩
    rw [List.append_assoc, List.cons_append, List.takeWhile_append_of_pos hi,
      List.dropWhile_append_of_pos hi, List.takeWhile_cons_of_neg hpoint,
      List.dropWhile_cons_of_neg hpoint, List.append_nil]
    refine ⟨_, _, takeFraction_point hne', hne', ?_, ?_⟩ <;> rw [List.dropWhile_append_of_pos hf]
    · exact (List.dropWhile_suffix isDigit).length_le
    · rintro e w' rfl he
      rw [List.dropWhile_cons_of_neg (by simp [exponentByte_ne he])]
  · rw [List.takeWhile_append_of_pos hi, List.dropWhile_append_of_pos hi]
    refine ⟨_, _, rfl, fun h => hne ⟨(List.append_eq_nil_iff.1 h.1).1, rfl⟩, ?_, ?_⟩
    · exact (length_takeFraction_le _ _).trans (List.dropWhile_suffix isDigit).length_le
    · rintro e w' rfl he
      obtain ⟨hd, hp⟩ := exponentByte_ne he
      rw [List.dropWhile_cons_of_neg (by simp [hd])]
      exact congrArg Prod.snd (if_neg fun h => hp h.1)

/-! ### The exponent -/

theorem takeExponent_reads (s : List Byte) :
    ∃ x, s = x ++ (takeExponent s).2.2 ∧ SpellsExponent (takeExponent s).1 (takeExponent s).2.1 x := by
  cases s with
  | nil => exact ⟨[], rfl, .inl ⟨rfl, rfl, rfl⟩⟩
  | cons b s =>
    by_cases h : (b = 0x65#8 ∨ b = 0x45#8) ∧ (takeSign s).2.takeWhile isDigit ≠ []
    · obtain ⟨sg, hs, hsg⟩ := takeSign_reads s
      rw [takeExponent, if_pos h]
      refine ⟨b :: (sg ++ (takeSign s).2.takeWhile isDigit), ?_,
        .inr ⟨b, sg, h.1, hsg, ⟨h.2, fun _ => List.mem_takeWhile_imp⟩, rfl⟩⟩
      rw [List.cons_append, List.append_assoc, List.takeWhile_append_dropWhile, ← hs]
    · rw [takeExponent, if_neg h]
      exact ⟨[], rfl, .inl ⟨rfl, rfl, rfl⟩⟩

theorem length_takeExponent_le (s : List Byte) : (takeExponent s).2.2.length ≤ s.length := by
  obtain ⟨x, hs, -⟩ := takeExponent_reads s
  have hl := congrArg List.length hs
  rw [List.length_append] at hl
  omega

/-- A complete exponent is read whole. -/
theorem length_takeExponent_complete {e : Byte} (he : e = 0x65#8 ∨ e = 0x45#8) {neg : Bool}
    {sg ds : List Byte} (hsg : SpellsSign neg sg) (hds : SpellsDigits ds) (r : List Byte) :
    (takeExponent (e :: (sg ++ ds ++ r))).2.2.length ≤ r.length := by
  obtain ⟨hne, hd⟩ := hds
  obtain ⟨b, ds', rfl⟩ := List.exists_cons_of_ne_nil hne
  obtain ⟨-, hm, hp⟩ := digit_ne (hd b List.mem_cons_self)
  have hsign : takeSign (sg ++ (b :: ds') ++ r) = (neg, (b :: ds') ++ r) := by
    rw [List.append_assoc]; exact hsg.takeSign_append hm hp (ds' ++ r)
  rw [takeExponent, hsign, if_pos ⟨he, by simp [hd b]⟩, List.dropWhile_append_of_pos hd]
  exact (List.dropWhile_suffix isDigit).length_le

/-! ### The parser -/

/-- The parser on what follows the sign. -/
theorem parseNumber_of_sign {s u F v : List Byte} {neg : Bool}
    (hsign : takeSign (s.dropWhile isWs) = (neg, u))
    (hfrac : takeFraction (u.takeWhile isDigit) (u.dropWhile isDigit) = (F, v))
    (hne : ¬ (u.takeWhile isDigit = [] ∧ F = [])) :
    parseNumber s = some (⟨neg, u.takeWhile isDigit, F, (takeExponent v).1, (takeExponent v).2.1⟩,
      (takeExponent v).2.2) := by
  simp only [parseNumber, hsign, hfrac, if_neg hne]

/-- What the parser reads is a number, with the parts it gives. -/
theorem spelledBy_of_parseNumber {s rest : List Byte} {d : Numeral}
    (h : parseNumber s = some (d, rest)) : ∃ p, s = p ++ rest ∧ d.SpelledBy p := by
  simp only [parseNumber] at h
  split at h
  · cases h
  · rename_i hne
    cases h
    obtain ⟨sg, hs, hsg⟩ := takeSign_reads (s.dropWhile isWs)
    obtain ⟨m, hu, hm⟩ := takeFraction_reads hne
    obtain ⟨x, hv, hx⟩ := takeExponent_reads
      (takeFraction ((takeSign (s.dropWhile isWs)).2.takeWhile isDigit)
        ((takeSign (s.dropWhile isWs)).2.dropWhile isDigit)).2
    refine ⟨s.takeWhile isWs ++ sg ++ m ++ x, ?_, _, sg, m, x, rfl,
      fun _ => List.mem_takeWhile_imp, hsg, hm, hx⟩
    rw [List.append_assoc, ← hv, List.append_assoc, ← hu, List.append_assoc, ← hs,
      List.takeWhile_append_dropWhile]

/-- Where a token begins with a number the parser finds one, and leaves no more than what follows that number. -/
theorem parseNumber_append_of_spelledBy {d : Numeral} {q : List Byte} (h : d.SpelledBy q)
    (r : List Byte) :
    ∃ d' rest, parseNumber (q ++ r) = some (d', rest) ∧ rest.length ≤ r.length := by
  obtain ⟨ws, sg, m, x, rfl, hws, hsg, hm, hx⟩ := h
  obtain ⟨b, m', hb, hbws, hminus, hplus⟩ := hm.exists_cons
  have htoken : ws ++ sg ++ m ++ x ++ r = ws ++ (sg ++ b :: (m' ++ (x ++ r))) := by
    simp only [hb, List.append_assoc, List.cons_append]
  have hsign : takeSign ((ws ++ sg ++ m ++ x ++ r).dropWhile isWs) = (d.neg, m ++ (x ++ r)) := by
    rw [htoken, hsg.dropWhile_ws hws hbws, hsg.takeSign_append hminus hplus, hb, List.cons_append]
  obtain ⟨F, v, hfrac, hne, hle, hexact⟩ := hm.takeFraction_append (x ++ r)
  refine ⟨_, _, parseNumber_of_sign hsign hfrac hne, ?_⟩
  rcases hx with ⟨rfl, -, -⟩ | ⟨e, sg', he, hsg', hds, rfl⟩
  · exact (length_takeExponent_le v).trans hle
  · rw [hexact e _ rfl he]
    exact length_takeExponent_complete he hsg' hds r

theorem noNumericPrefix_of_parseNumber {t : Token} (h : parseNumber t = none) :
    NoNumericPrefix t := by
  rintro d p ⟨r, rfl⟩ hd
  obtain ⟨d', rest, hsome, -⟩ := parseNumber_append_of_spelledBy hd r
  simp [h] at hsome

/-- Settles O35: what the parser reads is a number, and it leaves no more than any other would. -/
theorem numberPrefixIsTheLongest : Obligations.NumberPrefixIsTheLongest := by
  refine fun t => ⟨noNumericPrefix_of_parseNumber, fun d rest h => ?_⟩
  obtain ⟨p, ht, hp⟩ := spelledBy_of_parseNumber h
  refine ⟨p, ht, hp, fun d' q ⟨r, hq⟩ hd' => ?_⟩
  obtain ⟨d'', rest', h', hle⟩ := parseNumber_append_of_spelledBy hd' r
  rw [hq, h] at h'
  cases h'
  have hlen := congrArg List.length (hq.trans ht)
  rw [List.length_append, List.length_append] at hlen
  omega

end Sys2Proof.Machine
end

section
/-! SUPPORT. Rounding to binary32 (R153): the rounded quotient is the nearest integer with ties to even; a magnitude
is that integer in units of its quantum; and no other magnitude is nearer. -/

namespace Sys2Proof.Machine

/-! ### The rounded quotient -/

/-- `divRne a b` is no farther than half a unit from `a / b`, and even where it is just that far. -/
theorem divRne_half {a b : Nat} (hb : 0 < b) :
    2 * (divRne a b * b) ≤ 2 * a + b ∧ 2 * a ≤ 2 * (divRne a b * b) + b ∧
      (2 * (divRne a b * b) = 2 * a + b ∨ 2 * a = 2 * (divRne a b * b) + b → divRne a b % 2 = 0) := by
  have hdiv : b * (a / b) + a % b = a := Nat.div_add_mod a b
  have hmod : a % b < b := Nat.mod_lt a hb
  rw [Nat.mul_comm] at hdiv
  have hsucc : (a / b + 1) * b = a / b * b + b := Nat.succ_mul _ b
  unfold divRne
  simp only
  by_cases hlow : 2 * (a % b) < b
  · rw [if_pos hlow]; omega
  by_cases hhigh : b < 2 * (a % b)
  · rw [if_neg hlow, if_pos hhigh]; omega
  · rw [if_neg hlow, if_neg hhigh]
    rcases Nat.mod_two_eq_zero_or_one (a / b) with h | h <;> rw [h]
    · rw [Nat.add_zero]; omega
    · omega

/-- A quotient at or above an integer is rounded to no less. -/
theorem le_divRne {a b n : Nat} (hb : 0 < b) (h : n * b ≤ a) : n ≤ divRne a b := by
  by_contra hlt
  have hmul : (divRne a b + 1) * b ≤ n * b := Nat.mul_le_mul_right b (by omega)
  rw [Nat.succ_mul] at hmul
  obtain ⟨-, hupper, -⟩ := divRne_half (a := a) hb
  omega

/-- A quotient at or below an integer is rounded to no more. -/
theorem divRne_le {a b n : Nat} (hb : 0 < b) (h : a ≤ n * b) : divRne a b ≤ n := by
  by_contra hlt
  have hmul : (n + 1) * b ≤ divRne a b * b := Nat.mul_le_mul_right b (by omega)
  rw [Nat.succ_mul] at hmul
  obtain ⟨hlower, -, -⟩ := divRne_half (a := a) hb
  omega

/-- How far the integer `z` is from `a / b`, times `b`. -/
def quotientError (a b z : Nat) : Nat := ((z * b : Nat) - a : Int).natAbs

/-- The rounded quotient is a nearest integer, and even where another is as near. -/
theorem divRne_nearest {a b : Nat} (hb : 0 < b) (z : Nat) :
    quotientError a b (divRne a b) ≤ quotientError a b z ∧
      (z ≠ divRne a b → quotientError a b (divRne a b) = quotientError a b z →
        divRne a b % 2 = 0) := by
  obtain ⟨hlower, hupper, heven⟩ := divRne_half (a := a) hb
  unfold quotientError
  generalize divRne a b = n at *
  rcases Nat.lt_trichotomy z n with h | rfl | h
  · have hmul : (z + 1) * b ≤ n * b := Nat.mul_le_mul_right b h
    rw [Nat.succ_mul] at hmul
    omega
  · exact ⟨Nat.le_refl _, fun hne => absurd rfl hne⟩
  · have hmul : (n + 1) * b ≤ z * b := Nat.mul_le_mul_right b h
    rw [Nat.succ_mul] at hmul
    omega

/-- A quotient half a unit or more above an odd integer is rounded past it. -/
theorem lt_divRne_of_odd {a b n : Nat} (hb : 0 < b) (hodd : n % 2 = 1) (h : 2 * (n * b) + b ≤ 2 * a) :
    n < divRne a b := by
  by_contra hle
  obtain ⟨-, hupper, heven⟩ := divRne_half (a := a) hb
  have hmul : divRne a b * b ≤ n * b := Nat.mul_le_mul_right b (by omega)
  have hsame : divRne a b = n := Nat.eq_of_mul_eq_mul_right hb (by omega)
  have hzero := heven (.inr (by omega))
  omega

/-! ### Magnitudes in units of 2^-149 -/

theorem magnitudeUnits_subnormal {m : Nat} (hm : m < 2 ^ 23) : magnitudeUnits m = m :=
  if_pos (Nat.div_eq_of_lt hm)

theorem magnitudeUnits_normal (j : Nat) {m : Nat} (hm : m < 2 ^ 23) :
    magnitudeUnits ((j + 1) * 2 ^ 23 + m) = (2 ^ 23 + m) * 2 ^ j := by
  have hdiv : ((j + 1) * 2 ^ 23 + m) / 2 ^ 23 = j + 1 := by omega
  have hmod : ((j + 1) * 2 ^ 23 + m) % 2 ^ 23 = m := by omega
  rw [magnitudeUnits, hdiv, hmod, if_neg (Nat.succ_ne_zero j), Nat.add_sub_cancel]

/-- A magnitude is subnormal, or has an exponent and a significand. -/
theorem magnitude_cases (y : Nat) :
    y < 2 ^ 23 ∨ ∃ j m, m < 2 ^ 23 ∧ y = (j + 1) * 2 ^ 23 + m := by
  by_cases h : y < 2 ^ 23
  · exact .inl h
  · exact .inr ⟨y / 2 ^ 23 - 1, y % 2 ^ 23, by omega, by omega⟩

theorem magnitudeUnits_strictMono : StrictMono magnitudeUnits := by
  refine strictMono_nat_of_lt_succ fun y => ?_
  rcases magnitude_cases y with hy | ⟨j, m, hm, rfl⟩
  · rw [magnitudeUnits_subnormal hy]
    by_cases hnext : y + 1 < 2 ^ 23
    · rw [magnitudeUnits_subnormal hnext]; omega
    · have e : y + 1 = (0 + 1) * 2 ^ 23 + 0 := by omega
      rw [e, magnitudeUnits_normal 0 (by decide)]; omega
  · rw [magnitudeUnits_normal j hm]
    by_cases hnext : m + 1 < 2 ^ 23
    · rw [Nat.add_assoc, magnitudeUnits_normal j hnext]
      exact Nat.mul_lt_mul_of_pos_right (by omega) (Nat.two_pow_pos j)
    · have e : (j + 1) * 2 ^ 23 + m + 1 = (j + 1 + 1) * 2 ^ 23 + 0 := by omega
      rw [e, magnitudeUnits_normal (j + 1) (by decide), Nat.pow_succ 2 j]
      have hlt : (2 ^ 23 + m) * 2 ^ j < (2 ^ 23 + 2 ^ 23) * 2 ^ j :=
        Nat.mul_lt_mul_of_pos_right (by omega) (Nat.two_pow_pos j)
      omega

/-- `n` quanta of 2^k units, with `n` of 24 bits, are the magnitude that `roundMagnitude` writes. -/
theorem magnitudeUnits_quanta {k n : Nat} (hn : n ≤ 2 ^ 24) (hk : 0 < k → 2 ^ 23 ≤ n) :
    magnitudeUnits (k * 2 ^ 23 + n) = n * 2 ^ k := by
  by_cases hsub : n < 2 ^ 23
  · obtain rfl : k = 0 := by omega
    rw [Nat.zero_mul, Nat.zero_add, magnitudeUnits_subnormal hsub, Nat.pow_zero, Nat.mul_one]
  by_cases htop : n = 2 ^ 24
  · have e : k * 2 ^ 23 + n = (k + 1 + 1) * 2 ^ 23 + 0 := by omega
    rw [e, magnitudeUnits_normal (k + 1) (by decide), htop, Nat.pow_succ 2 k]
    omega
  · have e : k * 2 ^ 23 + n = (k + 1) * 2 ^ 23 + (n - 2 ^ 23) := by omega
    rw [e, magnitudeUnits_normal k (by omega), Nat.add_sub_cancel' (by omega)]

/-- A magnitude is a whole number of quanta of 2^k units, unless it is below 2^23 of them. -/
theorem magnitudeUnits_quanta_or_below (k y : Nat) :
    (∃ z, magnitudeUnits y = z * 2 ^ k) ∨ (0 < k ∧ magnitudeUnits y < 2 ^ 23 * 2 ^ k) := by
  rcases Nat.eq_zero_or_pos k with rfl | hk
  · exact .inl ⟨magnitudeUnits y, by rw [Nat.pow_zero, Nat.mul_one]⟩
  rcases magnitude_cases y with hy | ⟨j, m, hm, rfl⟩
  · rw [magnitudeUnits_subnormal hy]
    exact .inr ⟨hk, hy.trans_le (Nat.le_mul_of_pos_right _ (Nat.two_pow_pos k))⟩
  rw [magnitudeUnits_normal j hm]
  rcases Nat.lt_or_ge j k with hjk | hkj
  · refine .inr ⟨hk, ?_⟩
    calc (2 ^ 23 + m) * 2 ^ j < (2 ^ 23 + 2 ^ 23) * 2 ^ j :=
          Nat.mul_lt_mul_of_pos_right (by omega) (Nat.two_pow_pos j)
      _ = 2 ^ 23 * 2 ^ (j + 1) := by rw [Nat.pow_succ 2 j]; omega
      _ ≤ 2 ^ 23 * 2 ^ k := Nat.mul_le_mul_left _ (Nat.pow_le_pow_right (by decide) hjk)
  · refine .inl ⟨(2 ^ 23 + m) * 2 ^ (j - k), ?_⟩
    rw [Nat.mul_assoc, ← Nat.pow_add, Nat.sub_add_cancel hkj]

/-! ### The quantum -/

/-- The exponent of the quantum of `x / den` units: the least for which the quotient has at most 24 bits. -/
def quantumExp (x den : Nat) : Nat := Nat.log2 (x / den) - 23

/-- How many quanta `x / den` units are rounded to. -/
def quanta (x den : Nat) : Nat := divRne x (den * 2 ^ quantumExp x den)

/-- The bits of that many quanta, before the bound at infinity. -/
def quantaBits (x den : Nat) : Nat := quantumExp x den * 2 ^ 23 + quanta x den

theorem roundMagnitude_eq (num den : Nat) :
    roundMagnitude num den = min (quantaBits (num * 2 ^ 149) den) infBits := rfl

section Quantum

variable {x den : Nat}

theorem quantum_pos (h : 0 < den) (k : Nat) : 0 < den * 2 ^ k := Nat.mul_pos h (Nat.two_pow_pos k)

/-- Fewer than 2^24 quanta. -/
theorem lt_quantum (h : 0 < den) : x < 2 ^ 24 * (den * 2 ^ quantumExp x den) := by
  have hlog : x / den < 2 ^ (24 + quantumExp x den) :=
    Nat.lt_log2_self.trans_le (Nat.pow_le_pow_right (by decide) (by unfold quantumExp; omega))
  rw [Nat.div_lt_iff_lt_mul h, Nat.pow_add] at hlog
  rwa [Nat.mul_comm den, ← Nat.mul_assoc]

/-- At least 2^23 quanta, unless the quantum is one unit. -/
theorem quantum_le (hk : 0 < quantumExp x den) : 2 ^ 23 * (den * 2 ^ quantumExp x den) ≤ x := by
  have hexp : 23 + quantumExp x den = Nat.log2 (x / den) := by unfold quantumExp at hk ⊢; omega
  have hq : x / den ≠ 0 := fun h0 => by simp [quantumExp, h0] at hk
  have hlog : 2 ^ (23 + quantumExp x den) ≤ x / den := hexp ▸ Nat.log2_self_le hq
  calc 2 ^ 23 * (den * 2 ^ quantumExp x den) = 2 ^ (23 + quantumExp x den) * den := by
        rw [Nat.pow_add, Nat.mul_comm den, Nat.mul_assoc]
    _ ≤ x / den * den := Nat.mul_le_mul_right den hlog
    _ ≤ x := Nat.div_mul_le_self x den

theorem quanta_le (h : 0 < den) : quanta x den ≤ 2 ^ 24 :=
  divRne_le (quantum_pos h _) (lt_quantum h).le

theorem le_quanta (h : 0 < den) (hk : 0 < quantumExp x den) : 2 ^ 23 ≤ quanta x den :=
  le_divRne (quantum_pos h _) (quantum_le hk)

theorem quanta_nearest (h : 0 < den) (z : Nat) :
    quotientError x (den * 2 ^ quantumExp x den) (quanta x den) ≤
        quotientError x (den * 2 ^ quantumExp x den) z ∧
      (z ≠ quanta x den →
        quotientError x (den * 2 ^ quantumExp x den) (quanta x den) =
          quotientError x (den * 2 ^ quantumExp x den) z →
        quanta x den % 2 = 0) :=
  divRne_nearest (quantum_pos h _) z

theorem magnitudeUnits_quantaBits (h : 0 < den) :
    magnitudeUnits (quantaBits x den) = quanta x den * 2 ^ quantumExp x den :=
  magnitudeUnits_quanta (quanta_le h) (le_quanta h)

theorem quantaBits_even (h : quanta x den % 2 = 0) : quantaBits x den % 2 = 0 := by
  unfold quantaBits
  omega

/-- The bits reach infinity exactly from half a quantum below 2^277 units on: with a quantum below 2^253 units they
do not, with a larger one they do, and with that quantum they do when 2^24 quanta are reached. -/
theorem infBits_le_quantaBits_iff (h : 0 < den) :
    infBits ≤ quantaBits x den ↔ (2 ^ 25 - 1) * (den * 2 ^ 252) ≤ x := by
  unfold quantaBits
  have hpos : 0 < den * 2 ^ 252 := quantum_pos h 252
  have hdouble : den * 2 ^ 253 = 2 * (den * 2 ^ 252) := by omega
  have hmax := quanta_le (x := x) h
  have hmin := le_quanta (x := x) h
  have hbits : infBits = 255 * 2 ^ 23 := rfl
  rcases Nat.lt_trichotomy (quantumExp x den) 253 with hk | hk | hk
  · have hx := lt_quantum (x := x) h
    have hle : den * 2 ^ quantumExp x den ≤ den * 2 ^ 252 :=
      Nat.mul_le_mul_left _ (Nat.pow_le_pow_right (by decide) (by omega))
    omega
  · have hhalf := divRne_half (a := x) (quantum_pos h 253)
    have hodd := lt_divRne_of_odd (a := x) (n := 2 ^ 24 - 1) (quantum_pos h 253) (by decide)
    have hn : quanta x den = divRne x (den * 2 ^ 253) := by rw [quanta, hk]
    rw [← hn, hdouble] at hhalf hodd
    rw [hk]
    constructor
    · intro hinf
      have htop : quanta x den = 2 ^ 24 := by omega
      rw [htop] at hhalf
      omega
    · intro hx
      have htop := hodd (by omega)
      omega
  · have hx := quantum_le (x := x) (den := den) (by omega)
    have hle : den * 2 ^ 254 ≤ den * 2 ^ quantumExp x den :=
      Nat.mul_le_mul_left _ (Nat.pow_le_pow_right (by decide) hk)
    omega

end Quantum

/-! ### The rounded magnitude (R153) -/

theorem roundingError_of_quanta {num den y z k : Nat} (h : magnitudeUnits y = z * 2 ^ k) :
    roundingError num den y = quotientError (num * 2 ^ 149) (den * 2 ^ k) z := by
  rw [roundingError, quotientError, h, Nat.mul_left_comm z]
  push_cast
  rfl

/-- A magnitude below 2^23 quanta is farther than 2^23 quanta are, where those are not too many. -/
theorem quotientError_lt_of_below {num den y D : Nat} (hD : 2 ^ 23 * D ≤ num * 2 ^ 149)
    (hy : den * magnitudeUnits y < 2 ^ 23 * D) :
    quotientError (num * 2 ^ 149) D (2 ^ 23) < roundingError num den y := by
  unfold quotientError roundingError
  zify at hD hy
  push_cast
  omega

/-- The rounded magnitude is a nearest one, and even where another is as near: another whole number of quanta is
no nearer by `quanta_nearest`, and a magnitude between quanta is farther than 2^23 of them. -/
theorem quantaBits_nearest {num den : Nat} (h : 0 < den) (y : Nat) :
    roundingError num den (quantaBits (num * 2 ^ 149) den) ≤ roundingError num den y ∧
      (y ≠ quantaBits (num * 2 ^ 149) den →
        roundingError num den (quantaBits (num * 2 ^ 149) den) = roundingError num den y →
        quantaBits (num * 2 ^ 149) den % 2 = 0) := by
  have hunits := magnitudeUnits_quantaBits (x := num * 2 ^ 149) h
  rw [roundingError_of_quanta hunits]
  rcases magnitudeUnits_quanta_or_below (quantumExp (num * 2 ^ 149) den) y with ⟨z, hz⟩ | ⟨hk, hy⟩
  · rw [roundingError_of_quanta hz]
    obtain ⟨hle, heven⟩ := quanta_nearest (x := num * 2 ^ 149) h z
    refine ⟨hle, fun hne heq => quantaBits_even (heven (fun e => ?_) heq)⟩
    exact hne (magnitudeUnits_strictMono.injective (by rw [hz, hunits, e]))
  · obtain ⟨hle, -⟩ := quanta_nearest (x := num * 2 ^ 149) h (2 ^ 23)
    have hbelow := Nat.mul_lt_mul_of_pos_left hy h
    rw [Nat.mul_left_comm] at hbelow
    have hlt := hle.trans_lt (quotientError_lt_of_below (quantum_le hk) hbelow)
    exact ⟨hlt.le, fun _ heq => absurd heq hlt.ne⟩

/-- Infinity from 2^128 (1 - 2^-25) on, as a fraction and in units of 2^-149. -/
theorem threshold_iff (num den : Nat) :
    (2 ^ 25 - 1) * (den * 2 ^ 252) ≤ num * 2 ^ 149 ↔ den * (2 ^ 128 - 2 ^ 103) ≤ num := by
  omega

theorem roundMagnitude_eq_infBits_iff {num den : Nat} (h : 0 < den) :
    roundMagnitude num den = infBits ↔ den * (2 ^ 128 - 2 ^ 103) ≤ num := by
  rw [roundMagnitude_eq, min_eq_right_iff, infBits_le_quantaBits_iff h, threshold_iff]

/-- Settles O36. -/
theorem magnitudeRoundsToNearestEven : Obligations.MagnitudeRoundsToNearestEven := by
  refine fun num den h => ⟨roundMagnitude_eq_infBits_iff h, fun hfin => ?_⟩
  have hlt : quantaBits (num * 2 ^ 149) den < infBits :=
    Nat.lt_of_not_le fun hinf => hfin (min_eq_right hinf)
  rw [roundMagnitude_eq, min_eq_left hlt.le]
  exact ⟨hlt, fun y _ => quantaBits_nearest h y⟩

end Sys2Proof.Machine
end

section
/-! SUPPORT. The conversion of a token (R152, R153): the shortcuts for extreme exponents are exact, the significand
and the exponent of a numeral are its decimal value, and every admitted conversion has the properties of R152. -/

namespace Sys2Proof.Machine

/-! ### The shortcuts -/

theorem divRne_eq_zero {a b : Nat} (h : 2 * a < b) : divRne a b = 0 := by
  have hab : a < b := by omega
  simp only [divRne, Nat.div_eq_of_lt hab, Nat.mod_eq_of_lt hab, if_pos h]

/-- A magnitude below half of 2^-149 is rounded to zero. -/
theorem roundMagnitude_eq_zero {num den : Nat} (h : 2 * (num * 2 ^ 149) < den) :
    roundMagnitude num den = 0 := by
  have hexp : quantumExp (num * 2 ^ 149) den = 0 := by
    rw [quantumExp, Nat.div_eq_of_lt (by omega)]; rfl
  have hquanta : quanta (num * 2 ^ 149) den = 0 := by
    rw [quanta, hexp, Nat.pow_zero, Nat.mul_one, divRne_eq_zero h]
  rw [roundMagnitude_eq, quantaBits, hexp, hquanta]
  rfl

theorem roundDecimalExact_of_nonneg {e : Int} (he : 0 ≤ e) (m : Nat) :
    roundDecimalExact m e = roundMagnitude (m * 10 ^ e.toNat) 1 := if_pos he

theorem roundDecimalExact_of_neg {e : Int} (he : e < 0) (m : Nat) :
    roundDecimalExact m e = roundMagnitude m (10 ^ (-e).toNat) := if_neg he.not_ge

theorem roundDecimalExact_zero (e : Int) : roundDecimalExact 0 e = 0 := by
  rcases le_or_gt 0 e with he | he
  · rw [roundDecimalExact_of_nonneg he, Nat.zero_mul]
    exact roundMagnitude_eq_zero (by decide)
  · rw [roundDecimalExact_of_neg he]
    exact roundMagnitude_eq_zero (by rw [Nat.zero_mul]; exact Nat.pow_pos (by decide))

/-- 10^39 is above the threshold of infinity. -/
theorem roundDecimalExact_large {m : Nat} {e : Int} (hm : 0 < m) (he : 39 ≤ e) :
    roundDecimalExact m e = infBits := by
  rw [roundDecimalExact_of_nonneg (by omega), roundMagnitude_eq_infBits_iff Nat.one_pos]
  have hpow : 10 ^ 39 ≤ 10 ^ e.toNat := Nat.pow_le_pow_right (by decide) (by omega)
  calc 1 * (2 ^ 128 - 2 ^ 103) ≤ 10 ^ 39 := by decide
    _ ≤ 10 ^ e.toNat := hpow
    _ ≤ m * 10 ^ e.toNat := Nat.le_mul_of_pos_left _ hm

/-- 10^-46 is below half of 2^-149. -/
theorem roundDecimalExact_small {m n : Nat} {e : Int} (hm : m < 10 ^ n) (he : e + n ≤ -46) :
    roundDecimalExact m e = 0 := by
  rw [roundDecimalExact_of_neg (by omega)]
  refine roundMagnitude_eq_zero ?_
  have hpow : 10 ^ (n + 46) ≤ 10 ^ (-e).toNat := Nat.pow_le_pow_right (by decide) (by omega)
  rw [Nat.pow_add] at hpow
  omega

/-- Settles O37, shortcut by shortcut. -/
theorem decimalShortcutsAreExact : Obligations.DecimalShortcutsAreExact := by
  intro m n e hm
  unfold roundDecimal
  split
  · rename_i hzero
    rw [hzero, roundDecimalExact_zero]
  · split
    · rename_i hpos hlarge
      exact (roundDecimalExact_large (Nat.pos_of_ne_zero hpos) hlarge).symm
    · split
      · rename_i hsmall
        exact (roundDecimalExact_small hm hsmall).symm
      · rfl

/-! ### The decimal value of a numeral -/

theorem isDigit_iff {b : Byte} : isDigit b = true ↔ 0x30 ≤ b.toNat ∧ b.toNat ≤ 0x39 := by
  simp [isDigit]

theorem digitsValue_concat (ds : List Byte) (d : Byte) :
    digitsValue (ds ++ [d]) = digitsValue ds * 10 + (d.toNat - 0x30) := by
  rw [digitsValue, List.foldl_append]; rfl

theorem digitsValue_append (a b : List Byte) :
    digitsValue (a ++ b) = digitsValue a * 10 ^ b.length + digitsValue b := by
  induction b using List.reverseRecOn with
  | nil => simp [digitsValue]
  | append_singleton b d ih =>
    rw [← List.append_assoc, digitsValue_concat, digitsValue_concat, ih, List.length_append,
      List.length_singleton, Nat.pow_succ]
    ring

theorem digitsValue_lt {ds : List Byte} (h : ∀ b ∈ ds, isDigit b = true) :
    digitsValue ds < 10 ^ ds.length := by
  induction ds using List.reverseRecOn with
  | nil => decide
  | append_singleton ds d ih =>
    have hds := ih fun b hb => h b (List.mem_append_left [d] hb)
    obtain ⟨-, hd⟩ := isDigit_iff.1 (h d (List.mem_append_right ds List.mem_cons_self))
    rw [digitsValue_concat, List.length_append, List.length_singleton, Nat.pow_succ]
    omega

theorem Numeral.SpelledBy.significand_lt {d : Numeral} {p : List Byte} (h : d.SpelledBy p) :
    d.significand < 10 ^ (d.intPart ++ d.fracPart).length := by
  obtain ⟨ws, sg, m, x, -, -, -, hm, -⟩ := h
  obtain ⟨hi, hf, -, -⟩ := spellsMantissa_iff.1 hm
  exact digitsValue_lt (List.forall_mem_append.2 ⟨hi, hf⟩)

/-- The significand scaled by the exponent is the decimal value. -/
theorem Numeral.significand_mul_pow (d : Numeral) :
    (d.significand : ℚ) * 10 ^ d.exponent = d.magnitude := by
  rw [Numeral.significand, Numeral.exponent, Numeral.magnitude, digitsValue_append,
    zpow_sub₀ (by norm_num), zpow_natCast]
  push_cast
  field_simp

/-- `m * 10^e` rounded with no shortcut is a fraction of that value rounded. -/
theorem roundDecimalExact_fraction (m : Nat) (e : Int) :
    ∃ num den : Nat, 0 < den ∧ (num : ℚ) / den = m * 10 ^ e ∧
      roundDecimalExact m e = roundMagnitude num den := by
  rcases le_or_gt 0 e with he | he
  · refine ⟨m * 10 ^ e.toNat, 1, Nat.one_pos, ?_, roundDecimalExact_of_nonneg he m⟩
    lift e to Nat using he
    simp
  · refine ⟨m, 10 ^ (-e).toNat, Nat.pow_pos (by decide), ?_, roundDecimalExact_of_neg he m⟩
    obtain ⟨k, rfl⟩ := Int.exists_eq_neg_ofNat he.le
    simp [div_eq_mul_inv]

/-- Settles O38: the numeral's significand and exponent are exact, and so is the shortcut form. -/
theorem referenceConversionRoundsThePrefixOnce :
    Obligations.ReferenceConversionRoundsThePrefixOnce := by
  intro t d rest h
  obtain ⟨p, -, hp⟩ := spelledBy_of_parseNumber h
  obtain ⟨num, den, hden, hvalue, hround⟩ := roundDecimalExact_fraction d.significand d.exponent
  refine ⟨num, den, hden, hvalue.trans d.significand_mul_pow, ?_⟩
  rw [numConvRef, h, ← hround, ← decimalShortcutsAreExact _ _ _ hp.significand_lt]
  rfl

/-! ### The properties of R152 -/

theorem parseNumber_eq_none_iff {t : Token} : parseNumber t = none ↔ NoNumericPrefix t := by
  refine ⟨noNumericPrefix_of_parseNumber, fun h => ?_⟩
  rcases hp : parseNumber t with _ | ⟨d, rest⟩
  · rfl
  · obtain ⟨p, ht, hd⟩ := spelledBy_of_parseNumber hp
    exact absurd hd (h d p ⟨rest, ht.symm⟩)

/-- R152 (5) for the reference definition. -/
theorem numConvRef_roundTrip {t : Token} {v : Word32} (h : roundTripValues.lookup t = some v) :
    numConvRef t = v :=
  roundTrip_of_values (by decide +kernel) (by decide +kernel) (by decide +kernel) h

/-- R152 (5) for every lawful table. -/
theorem numConv_roundTrip {c : Config} (hc : numConvLawful c = true) {t : Token} {v : Word32}
    (h : roundTripValues.lookup t = some v) : numConv c t = v := by
  rcases numConv_listed_or_ref c t with ⟨w, hw⟩ | e
  · have hat := List.all_eq_true.1 hc (t, w) hw
    rw [numConvLawfulAt, h, Bool.and_eq_true] at hat
    exact beq_iff_eq.1 hat.2
  · rw [e, numConvRef_roundTrip h]

/-- Settles O39. -/
theorem numericConversionProperties : Obligations.NumericConversionProperties := by
  intro c hc
  obtain ⟨-, -, -, hlaw⟩ := configRefusal_none.1 hc
  exact ⟨fun t ht => numConv_eq_zero_of_lawful hlaw (parseNumber_eq_none_iff.2 ht),
    numConv_roundTrip hlaw rfl, numConv_roundTrip hlaw rfl, numConv_roundTrip hlaw rfl⟩

end Sys2Proof.Machine
end

section
/-! SUPPORT. The statements about RESET (R230), the start state (R231), and the invariant in the start state
(R105, R127). -/

namespace Sys2Proof.Machine

/-! ### RESET -/

/-- RESET is enabled in every state (R230). -/
theorem exec_reset (s : State) : exec .reset s = .next s.applyReset := rfl

/-- Settles O45: the next state is `State.applyReset`, whose elements its `simp` laws give. -/
theorem resetSetsEveryNamedElement : Obligations.ResetSetsEveryNamedElement := by
  intro s
  refine ⟨s.applyReset, exec_reset s, ?_⟩
  simp

/-! ### The start state -/

/-- Settles O46, element by element from the `simp` laws of `State.ofConfig`. -/
theorem startStateHasTheResetValues : Obligations.StartStateHasTheResetValues := by
  intro c
  simp

/-- Nothing is stored, unread, collected or pending, so only the capacities matter: both are positive in an
admitted configuration (R6, R7). -/
theorem State.inv_ofConfig {c : Config} (hc : configRefusal c = none) : (State.ofConfig c).Inv := by
  obtain ⟨-, hchCap, hfaCap, -⟩ := configRefusal_none.1 hc
  obtain ⟨hcur, hwait⟩ := cursorInsideAtReset c hfaCap
  exact {
    admitted := hc
    chBufCanonical := rfl
    chBufInside := by simp
    faBufCanonical := rfl
    faBufInside := by simp
    chRdInside := hchCap
    chCntBound := Nat.zero_le _
    chWrPlace := by simp
    chWritten := by simp
    faCurBound := hcur
    waitCursor := hwait
    faWritten := by simp
    diagCode := by simp }

/-- Settles O47. -/
theorem startStateMeetsTheInvariant : Obligations.StartStateMeetsTheInvariant :=
  fun _ hc => State.inv_ofConfig hc

end Sys2Proof.Machine
end
